-- ==== Sys2Proof/Word.lean ====
section
/-! DEFINITION. The machine's plain data units: Word, Byte and register index (00_scope R6, R8; 10_state R21).
Every sum of Words is taken modulo 2^16, which is `BitVec` addition (41_operate R106). -/

namespace Sys2Proof

/-- "the machine's native 16-bit storage/addressing unit" (00_scope R8, R12). -/
abbrev Word := BitVec 16

/-- A character or half of a Word: 8 bits (00_scope R8, D22). -/
abbrev Byte := BitVec 8

/-- The index of a general register, always a 3-bit instruction field (10_state R21). -/
abbrev Reg := Fin 8

/-- The number of Words of memory (00_scope R6). -/
abbrev memWords : Nat := 65536

end Sys2Proof
end

