-- ==== Sys2Proof/Config.lean ====
section
/-! DEFINITION. What an implementation fixes and the spec leaves open (00_scope R7): the names the parameters are keyed
by, the record of parameters, and the free values, which have no body. The values chosen for the record stand in
Machine/Params.lean. -/

namespace Sys2Proof

/-- The sixteen opcode names (30_encoding R60). -/
inductive Opcode where
  | br | add | ld | st | jsr | and | ldr | str | rti | not | ldi | sti | jmp | res | lea | trap
  deriving DecidableEq, Repr

/-- The six trap services (44_trap R141). -/
inductive TrapService where
  | getc | out | puts | in | putsp | halt
  deriving DecidableEq, Repr

/-- The three condition codes, "mutually exclusive, exactly one holds at any time" (10_state R27). -/
inductive Machine.Cond where
  | pos
  | zero
  | neg
  deriving DecidableEq, Repr

/-- What a trap vector outside the six services does: the two behaviours the source permits (44_trap R148, D13). -/
inductive UndefTrapPolicy where
  | abort
  | noop
  deriving DecidableEq, Repr

/-- The parameters of 00_scope R7. The two that R7 makes inputs of the launch state, `GPR_RESET` and `INIT_MEM`, are
arguments of `State.launch`. -/
structure Params where
  /-- `OPCODE_MAP`: the 4-bit number of each opcode. -/
  opcodeMap : Opcode → BitVec 4
  /-- `TRAP_MAP`: the 8-bit vector of each trap service. -/
  trapMap : TrapService → BitVec 8
  /-- The reserved keyboard-status address, `KBSR_ADDR`. -/
  kbsrAddr : Word
  /-- The reserved keyboard-data address, `KBDR_ADDR`. -/
  kbdrAddr : Word
  /-- `CC_ENCODING`: the 3-bit value of each condition code, N Z P. -/
  ccEncoding : Machine.Cond → BitVec 3
  /-- `IN_PROMPT`: the bytes the IN service writes before it reads. -/
  inPrompt : List Byte
  /-- `HALT_NOTICE`: the bytes the HALT service writes. -/
  haltNotice : List Byte
  /-- `UNDEF_TRAP_POLICY`. -/
  undefTrapPolicy : UndefTrapPolicy

/-- The fixed load address, at which execution begins: a constant of the hardware (00_scope R6, 70 R201). -/
def Config.loadAddress : Word := 0x3000

/-- FREE VALUE (DESIGN CHOICE, log 6): the source says only "prompt the user" (D16, U10). Safe. -/
opaque Config.inPrompt : List Byte

/-- FREE VALUE (DESIGN CHOICE, log 6): the source says only "a halt notice" (D16, U10). Safe. -/
opaque Config.haltNotice : List Byte

/-- FREE VALUE (DESIGN CHOICE, log 4): the environment's answer to the n-th `KbdAvail()` call, where the state
fixes none (20_memory R56, D18, U6). Safe. -/
opaque Config.kbdAvail : Nat → Bool

end Sys2Proof
end

