-- ==== Sys2Proof/Machine/Params.lean ====
section
/-! DEFINITION. The values this spec decided for the parameters of 00_scope R7. -/

namespace Sys2Proof.Machine

/-- The default of `OPCODE_MAP` (R7, 30_encoding R61, D1; PRESUMED, log 1). -/
def defaultOpcodeMap : Opcode → BitVec 4
  | .br => 0x0
  | .add => 0x1
  | .ld => 0x2
  | .st => 0x3
  | .jsr => 0x4
  | .and => 0x5
  | .ldr => 0x6
  | .str => 0x7
  | .rti => 0x8
  | .not => 0x9
  | .ldi => 0xA
  | .sti => 0xB
  | .jmp => 0xC
  | .res => 0xD
  | .lea => 0xE
  | .trap => 0xF

/-- The default of `TRAP_MAP` (R7, 30_encoding R75, D2; PRESUMED, log 1). -/
def defaultTrapMap : TrapService → BitVec 8
  | .getc => 0x20
  | .out => 0x21
  | .puts => 0x22
  | .in => 0x23
  | .putsp => 0x24
  | .halt => 0x25

/-- The default of `CC_ENCODING`: the bits N Z P, one set (R7, 10_state R27, D4; PRESUMED, log 1). -/
def defaultCcEncoding : Cond → BitVec 3
  | .neg => 0b100
  | .zero => 0b010
  | .pos => 0b001

/-- The one configuration record, from which the decoder, the encoder and the machine take every parameter. The maps
and the two addresses are the spec's, from general knowledge (D1 to D4; PRESUMED, log 1); the two texts are free values
(D16, log 6); the policy is `abort` (D13, log 7). -/
def params : Params where
  opcodeMap := defaultOpcodeMap
  trapMap := defaultTrapMap
  kbsrAddr := 0xFE00
  kbdrAddr := 0xFE02
  ccEncoding := defaultCcEncoding
  inPrompt := Config.inPrompt
  haltNotice := Config.haltNotice
  undefTrapPolicy := .abort

end Sys2Proof.Machine
end

