-- ==== Sys2Proof/Syntax.lean ====
section
/-! DEFINITION. The instructions: one constructor per row of spec/opcode_table.json, in the table's order
(30_encoding R76). Bits no field covers are no part of an instruction (R77, log 12). -/

namespace Sys2Proof

/-- An instruction with its operand fields (30_encoding R62). The six `trapUndef` constructors are the six rows
of the one instruction TRAP with an undefined vector; each carries the whole vector `trapvect8`. -/
inductive Instr where
  /-- BR, R111. -/
  | br (n z p : Bool) (off : BitVec 9)
  /-- ADD, register form, R101. -/
  | add (dr sr1 sr2 : Reg)
  /-- ADD, immediate form, R102. -/
  | addi (dr sr1 : Reg) (imm : BitVec 5)
  /-- LD, R122. -/
  | ld (dr : Reg) (off : BitVec 9)
  /-- ST, R126. -/
  | st (sr : Reg) (off : BitVec 9)
  /-- JSRR, R114. -/
  | jsrr (base : Reg)
  /-- JSR, R113. -/
  | jsr (off : BitVec 11)
  /-- AND, register form, R103. -/
  | and (dr sr1 sr2 : Reg)
  /-- AND, immediate form, R104. -/
  | andi (dr sr1 : Reg) (imm : BitVec 5)
  /-- LDR, R124. -/
  | ldr (dr base : Reg) (off : BitVec 6)
  /-- STR, R128. -/
  | str (sr base : Reg) (off : BitVec 6)
  /-- RTI, R161. -/
  | rti
  /-- NOT, R105. -/
  | not (dr sr1 : Reg)
  /-- LDI, R123. -/
  | ldi (dr : Reg) (off : BitVec 9)
  /-- STI, R127. -/
  | sti (sr : Reg) (off : BitVec 9)
  /-- JMP (RET with base 7), R112. -/
  | jmp (base : Reg)
  /-- RES, R162. -/
  | res
  /-- LEA, R125. -/
  | lea (dr : Reg) (off : BitVec 9)
  /-- TRAP with the vector of GETC, R142. -/
  | trapGetc
  /-- TRAP with the vector of OUT, R143. -/
  | trapOut
  /-- TRAP with the vector of PUTS, R144. -/
  | trapPuts
  /-- TRAP with the vector of IN, R145. -/
  | trapIn
  /-- TRAP with the vector of PUTSP, R146. -/
  | trapPutsp
  /-- TRAP with the vector of HALT, R147. -/
  | trapHalt
  /-- TRAP with an undefined vector 0x00 to 0x1F, R148. -/
  | trapUndef00 (vect : BitVec 8)
  /-- TRAP with an undefined vector 0x26 to 0x27, R148. -/
  | trapUndef26 (vect : BitVec 8)
  /-- TRAP with an undefined vector 0x28 to 0x2F, R148. -/
  | trapUndef28 (vect : BitVec 8)
  /-- TRAP with an undefined vector 0x30 to 0x3F, R148. -/
  | trapUndef30 (vect : BitVec 8)
  /-- TRAP with an undefined vector 0x40 to 0x7F, R148. -/
  | trapUndef40 (vect : BitVec 8)
  /-- TRAP with an undefined vector 0x80 to 0xFF, R148. -/
  | trapUndef80 (vect : BitVec 8)
  deriving DecidableEq, Repr

end Sys2Proof
end

