-- ==== Sys2Proof/WellFormed.lean ====
section
/-! DEFINITION. Which instructions are well formed: the vector of a `trapUndef` row lies in that row's range
(30_encoding R76). Every other field has exactly the width of its encoding, so it needs no check. -/

namespace Sys2Proof

/-- The field check of each constructor. -/
def Instr.wellFormed : Instr → Bool
  | .br _ _ _ _ => true
  | .add _ _ _ => true
  | .addi _ _ _ => true
  | .ld _ _ => true
  | .st _ _ => true
  | .jsrr _ => true
  | .jsr _ => true
  | .and _ _ _ => true
  | .andi _ _ _ => true
  | .ldr _ _ _ => true
  | .str _ _ _ => true
  | .rti => true
  | .not _ _ => true
  | .ldi _ _ => true
  | .sti _ _ => true
  | .jmp _ => true
  | .res => true
  | .lea _ _ => true
  | .trapGetc => true
  | .trapOut => true
  | .trapPuts => true
  | .trapIn => true
  | .trapPutsp => true
  | .trapHalt => true
  | .trapUndef00 v => decide (v ≤ 0x1F#8)
  | .trapUndef26 v => decide (0x26#8 ≤ v ∧ v ≤ 0x27#8)
  | .trapUndef28 v => decide (0x28#8 ≤ v ∧ v ≤ 0x2F#8)
  | .trapUndef30 v => decide (0x30#8 ≤ v ∧ v ≤ 0x3F#8)
  | .trapUndef40 v => decide (0x40#8 ≤ v ∧ v ≤ 0x7F#8)
  | .trapUndef80 v => decide (0x80#8 ≤ v)

end Sys2Proof
end

