-- ==== Sys2Proof/Decode.lean ====
section
/-! DEFINITION. The decoder, total on all 65536 Words (30_encoding R76: no Word is rejected, so there is no
rejection to name), then the encoder, both written from the formats of R62 and R63, and the row table of R76.
The opcode and vector numbers are read from the configuration record (00_scope R7; PRESUMED, log 1). -/

namespace Sys2Proof
open Machine (params)

/-- The opcode that `OPCODE_MAP` gives the number `op`, sought among the listed names; where none of them has it, the
name left over. -/
def opcodeAmong (op : BitVec 4) (left : Opcode) : List Opcode → Opcode
  | [] => left
  | o :: os => if params.opcodeMap o = op then o else opcodeAmong op left os

/-- `OPCODE_MAP` read by the decoder. The sixteen names have the sixteen numbers, so TRAP, the name left over, is read
for its own number only and there is no default arm (R91, D29; `opcodeMap_opcodeOf` proves it). -/
def opcodeOf (op : BitVec 4) : Opcode :=
  opcodeAmong op .trap
    [.br, .add, .ld, .st, .jsr, .and, .ldr, .str, .rti, .not, .ldi, .sti, .jmp, .res, .lea]

/-- The register index whose lowest bit is bit `lo` of the instruction Word (30_encoding R62). -/
def regField (w : Word) (lo : Nat) : Reg := (w.extractLsb' lo 3).toFin

/-- The 3-bit field of a register index. -/
def regBits (r : Reg) : BitVec 3 := BitVec.ofFin r

/-- TRAP: the service of a defined vector, else the row of R76 whose range holds the vector. -/
def decodeTrap (v : BitVec 8) : Instr :=
  if v = params.trapMap .getc then .trapGetc
  else if v = params.trapMap .out then .trapOut
  else if v = params.trapMap .puts then .trapPuts
  else if v = params.trapMap .in then .trapIn
  else if v = params.trapMap .putsp then .trapPutsp
  else if v = params.trapMap .halt then .trapHalt
  else if v ≤ 0x1F#8 then .trapUndef00 v
  else if v ≤ 0x27#8 then .trapUndef26 v
  else if v ≤ 0x2F#8 then .trapUndef28 v
  else if v ≤ 0x3F#8 then .trapUndef30 v
  else if v ≤ 0x7F#8 then .trapUndef40 v
  else .trapUndef80 v

/-- The decoder (30_encoding R76, 40_execution_cycle R91). It looks at no bit that no field covers (R77). -/
def decode (w : Word) : Instr :=
  match opcodeOf (w.extractLsb' 12 4) with
  | .br => .br w[11] w[10] w[9] (w.extractLsb' 0 9)
  | .add =>
    if w[5] then .addi (regField w 9) (regField w 6) (w.extractLsb' 0 5)
    else .add (regField w 9) (regField w 6) (regField w 0)
  | .ld => .ld (regField w 9) (w.extractLsb' 0 9)
  | .st => .st (regField w 9) (w.extractLsb' 0 9)
  | .jsr => if w[11] then .jsr (w.extractLsb' 0 11) else .jsrr (regField w 6)
  | .and =>
    if w[5] then .andi (regField w 9) (regField w 6) (w.extractLsb' 0 5)
    else .and (regField w 9) (regField w 6) (regField w 0)
  | .ldr => .ldr (regField w 9) (regField w 6) (w.extractLsb' 0 6)
  | .str => .str (regField w 9) (regField w 6) (w.extractLsb' 0 6)
  | .rti => .rti
  | .not => .not (regField w 9) (regField w 6)
  | .ldi => .ldi (regField w 9) (w.extractLsb' 0 9)
  | .sti => .sti (regField w 9) (w.extractLsb' 0 9)
  | .jmp => .jmp (regField w 6)
  | .res => .res
  | .lea => .lea (regField w 9) (w.extractLsb' 0 9)
  | .trap => decodeTrap (w.extractLsb' 0 8)

/-- Format PC9 (R63): opcode, three bits, PCoffset9. -/
def encodePc9 (op : Opcode) (top : BitVec 3) (off : BitVec 9) : Word := params.opcodeMap op ++ top ++ off

/-- Format OPR (R63): bit 5 clear, bits 4:3 the conventional 00 (R77). -/
def encodeOpr (op : Opcode) (dr sr1 sr2 : Reg) : Word :=
  params.opcodeMap op ++ regBits dr ++ regBits sr1 ++ 0b000#3 ++ regBits sr2

/-- Format OPI (R63): bit 5 set. -/
def encodeOpi (op : Opcode) (dr sr1 : Reg) (imm : BitVec 5) : Word :=
  params.opcodeMap op ++ regBits dr ++ regBits sr1 ++ 1#1 ++ imm

/-- Formats BASE6 and NOT (R63). -/
def encodeBase6 (op : Opcode) (top : Reg) (base : Reg) (low : BitVec 6) : Word :=
  params.opcodeMap op ++ regBits top ++ regBits base ++ low

/-- Format PC11 (R63): bit 11 set. -/
def encodePc11 (off : BitVec 11) : Word := params.opcodeMap .jsr ++ 1#1 ++ off

/-- Format NONE (R63): bits 11:0 the conventional zeros (R77). -/
def encodeNone (op : Opcode) : Word := params.opcodeMap op ++ 0#12

/-- Format TRAP (R63): bits 11:8 the conventional 0000 (R77). -/
def encodeTrap (v : BitVec 8) : Word := params.opcodeMap .trap ++ 0b0000#4 ++ v

/-- The encoder: the Word of an instruction, the bits no field covers at their conventional values (R63, R77,
R84). It stands for a well-formed instruction only. -/
def encode : Instr → Word
  | .br n z p off => encodePc9 .br (BitVec.ofBool n ++ BitVec.ofBool z ++ BitVec.ofBool p) off
  | .add dr sr1 sr2 => encodeOpr .add dr sr1 sr2
  | .addi dr sr1 imm => encodeOpi .add dr sr1 imm
  | .ld dr off => encodePc9 .ld (regBits dr) off
  | .st sr off => encodePc9 .st (regBits sr) off
  | .jsrr base => encodeBase6 .jsr 0 base 0
  | .jsr off => encodePc11 off
  | .and dr sr1 sr2 => encodeOpr .and dr sr1 sr2
  | .andi dr sr1 imm => encodeOpi .and dr sr1 imm
  | .ldr dr base off => encodeBase6 .ldr dr base off
  | .str sr base off => encodeBase6 .str sr base off
  | .rti => encodeNone .rti
  | .not dr sr1 => encodeBase6 .not dr sr1 0b111111
  | .ldi dr off => encodePc9 .ldi (regBits dr) off
  | .sti sr off => encodePc9 .sti (regBits sr) off
  | .jmp base => encodeBase6 .jmp 0 base 0
  | .res => encodeNone .res
  | .lea dr off => encodePc9 .lea (regBits dr) off
  | .trapGetc => encodeTrap (params.trapMap .getc)
  | .trapOut => encodeTrap (params.trapMap .out)
  | .trapPuts => encodeTrap (params.trapMap .puts)
  | .trapIn => encodeTrap (params.trapMap .in)
  | .trapPutsp => encodeTrap (params.trapMap .putsp)
  | .trapHalt => encodeTrap (params.trapMap .halt)
  | .trapUndef00 v => encodeTrap v
  | .trapUndef26 v => encodeTrap v
  | .trapUndef28 v => encodeTrap v
  | .trapUndef30 v => encodeTrap v
  | .trapUndef40 v => encodeTrap v
  | .trapUndef80 v => encodeTrap v

/-- The bits of the Word of an instruction that no field covers (30_encoding R77). -/
def uncoveredBits : Instr → Word
  | .br _ _ _ _ => 0
  | .add _ _ _ => 0x0018
  | .addi _ _ _ => 0
  | .ld _ _ => 0
  | .st _ _ => 0
  | .jsrr _ => 0x063F
  | .jsr _ => 0
  | .and _ _ _ => 0x0018
  | .andi _ _ _ => 0
  | .ldr _ _ _ => 0
  | .str _ _ _ => 0
  | .rti => 0x0FFF
  | .not _ _ => 0x003F
  | .ldi _ _ => 0
  | .sti _ _ => 0
  | .jmp _ => 0x0E3F
  | .res => 0x0FFF
  | .lea _ _ => 0
  | .trapGetc => 0x0F00
  | .trapOut => 0x0F00
  | .trapPuts => 0x0F00
  | .trapIn => 0x0F00
  | .trapPutsp => 0x0F00
  | .trapHalt => 0x0F00
  | .trapUndef00 _ => 0x0F00
  | .trapUndef26 _ => 0x0F00
  | .trapUndef28 _ => 0x0F00
  | .trapUndef30 _ => 0x0F00
  | .trapUndef40 _ => 0x0F00
  | .trapUndef80 _ => 0x0F00

/-- One row of the table of R76: a Word belongs to it when `(w &&& mask) = pattern`. -/
structure DecodeRow where
  mask : Word
  pattern : Word
  deriving DecidableEq, Repr

/-- Whether the Word belongs to the row. -/
def rowMatches (r : DecodeRow) (w : Word) : Bool := decide (w &&& r.mask = r.pattern)

/-- The row of R76 that each constructor stands for. -/
def rowOf : Instr → DecodeRow
  | .br _ _ _ _ => ⟨0xF000, 0x0000⟩
  | .add _ _ _ => ⟨0xF020, 0x1000⟩
  | .addi _ _ _ => ⟨0xF020, 0x1020⟩
  | .ld _ _ => ⟨0xF000, 0x2000⟩
  | .st _ _ => ⟨0xF000, 0x3000⟩
  | .jsrr _ => ⟨0xF800, 0x4000⟩
  | .jsr _ => ⟨0xF800, 0x4800⟩
  | .and _ _ _ => ⟨0xF020, 0x5000⟩
  | .andi _ _ _ => ⟨0xF020, 0x5020⟩
  | .ldr _ _ _ => ⟨0xF000, 0x6000⟩
  | .str _ _ _ => ⟨0xF000, 0x7000⟩
  | .rti => ⟨0xF000, 0x8000⟩
  | .not _ _ => ⟨0xF000, 0x9000⟩
  | .ldi _ _ => ⟨0xF000, 0xA000⟩
  | .sti _ _ => ⟨0xF000, 0xB000⟩
  | .jmp _ => ⟨0xF000, 0xC000⟩
  | .res => ⟨0xF000, 0xD000⟩
  | .lea _ _ => ⟨0xF000, 0xE000⟩
  | .trapGetc => ⟨0xF0FF, 0xF020⟩
  | .trapOut => ⟨0xF0FF, 0xF021⟩
  | .trapPuts => ⟨0xF0FF, 0xF022⟩
  | .trapIn => ⟨0xF0FF, 0xF023⟩
  | .trapPutsp => ⟨0xF0FF, 0xF024⟩
  | .trapHalt => ⟨0xF0FF, 0xF025⟩
  | .trapUndef00 _ => ⟨0xF0E0, 0xF000⟩
  | .trapUndef26 _ => ⟨0xF0FE, 0xF026⟩
  | .trapUndef28 _ => ⟨0xF0F8, 0xF028⟩
  | .trapUndef30 _ => ⟨0xF0F0, 0xF030⟩
  | .trapUndef40 _ => ⟨0xF0C0, 0xF040⟩
  | .trapUndef80 _ => ⟨0xF080, 0xF080⟩

/-- The thirty rows of R76, mask and pattern, in the table's order, in two halves. -/
def decodeRows : List DecodeRow :=
  [⟨0xF000, 0x0000⟩, ⟨0xF020, 0x1000⟩, ⟨0xF020, 0x1020⟩, ⟨0xF000, 0x2000⟩, ⟨0xF000, 0x3000⟩,
   ⟨0xF800, 0x4000⟩, ⟨0xF800, 0x4800⟩, ⟨0xF020, 0x5000⟩, ⟨0xF020, 0x5020⟩, ⟨0xF000, 0x6000⟩,
   ⟨0xF000, 0x7000⟩, ⟨0xF000, 0x8000⟩, ⟨0xF000, 0x9000⟩, ⟨0xF000, 0xA000⟩, ⟨0xF000, 0xB000⟩] ++
  [⟨0xF000, 0xC000⟩, ⟨0xF000, 0xD000⟩, ⟨0xF000, 0xE000⟩, ⟨0xF0FF, 0xF020⟩, ⟨0xF0FF, 0xF021⟩,
   ⟨0xF0FF, 0xF022⟩, ⟨0xF0FF, 0xF023⟩, ⟨0xF0FF, 0xF024⟩, ⟨0xF0FF, 0xF025⟩, ⟨0xF0E0, 0xF000⟩,
   ⟨0xF0FE, 0xF026⟩, ⟨0xF0F8, 0xF028⟩, ⟨0xF0F0, 0xF030⟩, ⟨0xF0C0, 0xF040⟩, ⟨0xF080, 0xF080⟩]

/-- The instruction read from a table word: the low `nbits` bits of `w`, the bits above them zero. Every row is
one Word (R60), so the number of `w` is the Word's own number. -/
def decodeTableWord (nbits w : Nat) : Option Instr := some (decode (BitVec.ofNat 16 (w % 2 ^ nbits)))

end Sys2Proof
end

