-- ==== Sys2Proof/Machine/Operands.lean ====
section
/-! DEFINITION. Every operand form: sign and zero extension, the two bytes of a Word, the address sums
(30_encoding R70 to R72). Nothing is scaled; sums wrap modulo 2^16 (41 R106, D17). -/

namespace Sys2Proof.Machine

/-- `sext_N` of an N-bit field (30_encoding R70). -/
def sext {n : Nat} (v : BitVec n) : Word := v.signExtend 16

/-- `zext_8` of a character (30_encoding R71). -/
def zext8 (c : Byte) : Word := c.setWidth 16

/-- Bits 7:0 of a Word: the character of OUT and PUTS, the first of PUTSP (20_memory R45). -/
def lowByte (v : Word) : Byte := v.extractLsb' 0 8

/-- Bits 15:8 of a Word: the second character of PUTSP (20_memory R45). -/
def highByte (v : Word) : Byte := v.extractLsb' 8 8

/-- The Word of a high and a low byte. -/
def joinBytes (high low : Byte) : Word := high ++ low

/-- PC-relative address with PCoffset9, from the incremented `pc` (R72). -/
def pcRel9 (pc : Word) (off : BitVec 9) : Word := pc + sext off

/-- PC-relative address with PCoffset11, from the incremented `pc` (R72). -/
def pcRel11 (pc : Word) (off : BitVec 11) : Word := pc + sext off

/-- Base plus offset6 (R72). -/
def baseOff6 (base : Word) (off : BitVec 6) : Word := base + sext off

end Sys2Proof.Machine
end

