-- ==== Sys2Proof/Machine/State.lean ====
section
/-! DEFINITION. The state as plain data (10_state R20: "exactly this list", with the console streams of R35 and
the environment's answers of 00_scope R10), the reasons a step can stop, and the state after reset (R36). -/

namespace Sys2Proof.Machine

/-- The causes of a fatal condition (60_exceptions R170). -/
inductive Cause where
  /-- RTI_UNIMPLEMENTED, code 1. -/
  | rtiUnimplemented
  /-- RES_UNIMPLEMENTED, code 2. -/
  | resUnimplemented
  /-- UNDEFINED_TRAP, code 3. -/
  | undefinedTrap
  deriving DecidableEq, Repr

/-- The run state (10_state R31, D14). -/
inductive RunState where
  | running
  | halted
  | aborted (cause : Cause)
  deriving DecidableEq, Repr

/-- Memory: the cells whose byte is not zero, addresses strictly rising. Word `a` of the 65536 Words is the two
cells `2a` (bits 15:8) and `2a + 1` (bits 7:0); no instruction can see that order (20_memory R45; log 3). -/
abbrev Memory := List Host.Cell

/-- The whole state. -/
structure State where
  /-- The general registers x[0] to x[7] (R21). -/
  x : Vector Word 8
  /-- The program counter (R24): during `exec` the incremented one. -/
  pc : Word
  /-- The condition code (R27). -/
  cc : Cond
  /-- The run state (R31). -/
  run : RunState
  /-- The memory, the two keyboard words among it (R32, R33). -/
  mem : Memory
  /-- Environment: the characters of the input stream not yet taken, the next one first (R35, R186). -/
  input : List Byte
  /-- Environment, the model's own field: the answers to the next `KbdAvail()` calls that are fixed (log 4). -/
  answers : List Bool
  /-- The model's own field: how many `KbdAvail()` calls were made, the index of the free value (log 4). -/
  polls : Nat
  /-- Environment: the bytes of the output stream, oldest first (R35, R189). -/
  output : List Byte
  /-- How many bytes of the output stream `ConFlush()` has made visible (00_scope R10; log 11). -/
  flushed : Nat
  deriving DecidableEq, Repr

/-- Why a step stops. -/
inductive Fault where
  /-- Raised by `step` when `run` is HALTED, which is terminal: the engine has no step (40 R93). Safe. -/
  | halted
  /-- Raised by `step` when `run` is ABORTED: the engine has no step, and the run is no final one (R93, R171). Safe. -/
  | aborted (cause : Cause)
  /-- Raised by GETC and IN when no character is left in the input stream: the engine waits inside the instruction
  (40 R95, 60 R187, D15). `written` is the output stream while it waits, IN's prompt included. Safe. -/
  | awaitingInput (written : List Byte)
  /-- Raised by PUTS and PUTSP when no Word of memory is zero: the walk never ends (44 R144, R146). Safe. -/
  | endlessString
  deriving DecidableEq, Repr

/-- Why the model gives an instruction no meaning. -/
inductive Refusal where
  /-- Raised by an arm of `exec` whose instruction has no meaning yet. Safe. No arm raises it in this model. -/
  | notModelled (mnemonic : String)
  deriving DecidableEq, Repr

/-- What a meaning answers. -/
abbrev Result := Host.Outcome State Fault Refusal

/-- The state after reset (10_state R36, 70 R200). The registers (log 2), the input stream (log 5), the answers
and their counter (log 4) and the flush count (log 11) are DESIGN CHOICE values: the spec states none. -/
def State.reset : State where
  x := Vector.replicate 8 0
  pc := Config.loadAddress
  cc := .zero
  run := .running
  mem := []
  input := []
  answers := []
  polls := 0
  output := []
  flushed := 0

end Sys2Proof.Machine
end

