-- ==== Sys2Proof/Machine/Ops.lean ====
section
/-! DEFINITION. The named operations over memory, registers and the console (the primitives of 00_scope R9, R10),
the fetch (40 R90), the entry of a TRAP (60 R174) and the fatal condition (60 R171). There is no return from either:
a service ends with `pc` already at the next instruction, and RTI is unimplemented (60 R176). -/

namespace Sys2Proof.Machine

/-! ### Memory -/

/-- What a cell that is not listed reads as: memory is zero at reset (10_state R36). -/
def unlistedByte : Byte := 0

/-- The byte of one cell. -/
def Memory.byte : Memory → Nat → Byte
  | [], _ => unlistedByte
  | (b, v) :: m, a => if b = a then v else Memory.byte m a

/-- Without any cell at address `a`. -/
def Memory.erase (m : Memory) (a : Nat) : Memory := m.filter fun c => c.1 != a

/-- The cell in its place among rising addresses. -/
def Memory.insertCell (a : Nat) (v : Byte) : Memory → Memory
  | [] => [(a, v)]
  | (b, u) :: m => if a < b then (a, v) :: (b, u) :: m else (b, u) :: Memory.insertCell a v m

/-- Write one cell, keeping the canonical form. -/
def Memory.setByte (m : Memory) (a : Nat) (v : Byte) : Memory :=
  if v = unlistedByte then Memory.erase m a else Memory.insertCell a v (Memory.erase m a)

/-- `Mem[a]`: the stored Word, without interception (10_state R33). -/
def Memory.word (m : Memory) (a : Word) : Word :=
  joinBytes (Memory.byte m (2 * a.toNat)) (Memory.byte m (2 * a.toNat + 1))

/-- `Mem[a] <- v` (10_state R33). -/
def Memory.setWord (m : Memory) (a v : Word) : Memory :=
  Memory.setByte (Memory.setByte m (2 * a.toNat) (highByte v)) (2 * a.toNat + 1) (lowByte v)

/-- The canonical form: addresses strictly rising and inside the 65536 Words, no cell equal to an unlisted one. -/
abbrev Memory.wf (m : Memory) : Prop :=
  m.Pairwise (fun c d => c.1 < d.1) ∧ ∀ c ∈ m, c.1 < 2 * memWords ∧ c.2 ≠ unlistedByte

/-- The Words from `a` on up to the first zero Word, the walk of PUTS and PUTSP: direct reads, addresses modulo
2^16 (20_memory R44). `none` when the first `n` Words are all non-zero. -/
def Memory.stringFrom (m : Memory) : Nat → Word → Option (List Word)
  | 0, _ => none
  | n + 1, a =>
    if Memory.word m a = 0 then some []
    else (Memory.stringFrom m n (a + 1)).map fun ws => Memory.word m a :: ws

/-! ### Registers -/

/-- `x[i]` (10_state R21). -/
def State.reg (s : State) (i : Reg) : Word := s.x[i]

/-- `x[i] <- v`; the condition code is not touched (10_state R22). -/
def State.setReg (s : State) (i : Reg) (v : Word) : State := { s with x := s.x.set i v }

/-- `pc <- target` (10_state R24). -/
def State.setPc (s : State) (target : Word) : State := { s with pc := target }

/-- The run state written. -/
def State.setRun (s : State) (r : RunState) : State := { s with run := r }

/-- The memory replaced. -/
def State.setMem (s : State) (m : Memory) : State := { s with mem := m }

/-- The input stream replaced. -/
def State.setInput (s : State) (chars : List Byte) : State := { s with input := chars }

/-! ### The console -/

/-- The environment's answer to `KbdAvail()`: fixed by the state or a free value, and true only when a character
exists (00_scope R10, 60 R186; log 4). -/
def State.kbdAvail (s : State) : Bool :=
  !s.input.isEmpty && match s.answers with
    | answer :: _ => answer
    | [] => Config.kbdAvail s.polls

/-- The state after a call of `KbdAvail()`: the answer is used up. -/
def State.kbdPolled (s : State) : State := { s with answers := s.answers.tail, polls := s.polls + 1 }

/-- `KbdTake()`: the next character and the state without it; no result when none is left (60 R186, R187). -/
def State.kbdTake (s : State) : Option (Byte × State) :=
  match s.input with
  | [] => none
  | c :: rest => some (c, s.setInput rest)

/-- `ConPut` of each byte in order (00_scope R10). -/
def State.conPut (s : State) (bytes : List Byte) : State := { s with output := s.output ++ bytes }

/-- `ConFlush()`: every byte written so far is visible (00_scope R10, 60 R189). -/
def State.conFlush (s : State) : State := { s with flushed := s.output.length }

/-! ### The memory interface -/

/-- `KbdIntercept()` (20_memory R42). -/
def State.kbdIntercept (s : State) : State :=
  match s.kbdAvail, s.kbdPolled.kbdTake with
  | true, some (c, t) =>
    t.setMem ((t.mem.setWord params.kbsrAddr 0x8000).setWord params.kbdrAddr (zext8 c))
  | _, _ => s.kbdPolled.setMem (s.kbdPolled.mem.setWord params.kbsrAddr 0x0000)

/-- `MemRead(addr, 1)`: the Word and the state after the read (20_memory R41). -/
def State.memRead (s : State) (addr : Word) : Word × State :=
  let t := if addr = params.kbsrAddr then s.kbdIntercept else s
  (t.mem.word addr, t)

/-- `MemWrite(addr, 1, v)`, intercepted nowhere (20_memory R43). -/
def State.memWrite (s : State) (addr v : Word) : State := s.setMem (s.mem.setWord addr v)

/-! ### The cycle, TRAP entry, the fatal condition -/

/-- The fetch: the instruction Word by an intercepted read, then `pc` plus one modulo 2^16 (40 R90, D9). -/
def State.fetch (s : State) : Word × State :=
  let r := s.memRead s.pc
  (r.1, r.2.setPc (r.2.pc + 1))

/-- The link: the incremented `pc` into x[7] (42 R113, R114; TRAP's entry, 44 R140, 60 R174). -/
def State.link (s : State) : State := s.setReg 7 s.pc

/-- `raise Abort(cause)`: the run state and nothing else (60 R171). -/
def State.raiseAbort (s : State) (cause : Cause) : State := s.setRun (.aborted cause)

/-- Why the engine has no step, if it has none (40 R93). -/
def stopOf : RunState → Option Fault
  | .running => none
  | .halted => some .halted
  | .aborted cause => some (.aborted cause)

end Sys2Proof.Machine
end

