-- ==== Sys2Proof/Machine/Flags.lean ====
section
/-! DEFINITION. The condition code: its value for a Word, the BR test, and the write of a
destination register followed by the flag update (10_state R27 to R29). -/

namespace Sys2Proof.Machine

/-- The condition code of a value (10_state R28). -/
def condOf (v : Word) : Cond := if v = 0 then .zero else if v[15] then .neg else .pos

/-- `setcc(v)` (10_state R28). -/
def State.setcc (s : State) (v : Word) : State := { s with cc := condOf v }

/-- BR's condition: the instruction's bits n z p ANDed with the condition code are nonzero (42 R111). -/
def branchTaken (n z p : Bool) (cc : Cond) : Bool :=
  ((BitVec.ofBool n ++ BitVec.ofBool z ++ BitVec.ofBool p : BitVec 3) &&& params.ccEncoding cc) != 0

/-- The destination register written, then "update flags on DR" (10_state R23, R29). -/
def State.writeDest (s : State) (dr : Reg) (v : Word) : State := (s.setReg dr v).setcc v

end Sys2Proof.Machine
end

