-- ==== Sys2Proof/Machine/Control.lean ====
section
/-! DEFINITION. Control transfer BR, JMP, JSR, JSRR (42_control). -/

namespace Sys2Proof.Machine

/-- BR (R111). -/
def execBr (n z p : Bool) (off : BitVec 9) (s : State) : Result :=
  .next (if branchTaken n z p s.cc then s.setPc (pcRel9 s.pc off) else s)

/-- JMP, and its spelling RET (R112). -/
def execJmp (base : Reg) (s : State) : Result := .next (s.setPc (s.reg base))

/-- JSR: the link, then PC-relative (R113). -/
def execJsr (off : BitVec 11) (s : State) : Result := .next (s.link.setPc (pcRel11 s.pc off))

/-- JSRR: the link first, the base register read after it (R114). -/
def execJsrr (base : Reg) (s : State) : Result := .next (s.link.setPc (s.link.reg base))

end Sys2Proof.Machine
end

