-- ==== Sys2Proof/Machine/LoadStore.lean ====
section
/-! DEFINITION. Loads and stores LD, LDI, LDR, LEA, ST, STI, STR (43_load_store). Registers are read, then memory,
then the destination is written (D19). -/

namespace Sys2Proof.Machine

/-- One intercepted read into a destination register with its flags. -/
def loadWord (dr : Reg) (a : Word) (s : State) : Result :=
  .next ((s.memRead a).2.writeDest dr (s.memRead a).1)

/-- The Word at `a` is itself the address of the read (LDI, LDR). -/
def loadIndirect (dr : Reg) (a : Word) (s : State) : Result :=
  loadWord dr (s.memRead a).1 (s.memRead a).2

/-- LD (R122). -/
def execLd (dr : Reg) (off : BitVec 9) (s : State) : Result := loadWord dr (pcRel9 s.pc off) s

/-- LDI (R123). -/
def execLdi (dr : Reg) (off : BitVec 9) (s : State) : Result := loadIndirect dr (pcRel9 s.pc off) s

/-- LDR, with this machine's double read (R124, D27). -/
def execLdr (dr base : Reg) (off : BitVec 6) (s : State) : Result :=
  loadIndirect dr (baseOff6 (s.reg base) off) s

/-- LEA: the address alone, no memory access (R125). -/
def execLea (dr : Reg) (off : BitVec 9) (s : State) : Result := .next (s.writeDest dr (pcRel9 s.pc off))

/-- ST (R126). -/
def execSt (sr : Reg) (off : BitVec 9) (s : State) : Result :=
  .next (s.memWrite (pcRel9 s.pc off) (s.reg sr))

/-- STI: the pointer is read, then the store is made (R127). -/
def execSti (sr : Reg) (off : BitVec 9) (s : State) : Result :=
  .next ((s.memRead (pcRel9 s.pc off)).2.memWrite (s.memRead (pcRel9 s.pc off)).1 (s.reg sr))

/-- STR (R128). -/
def execStr (sr base : Reg) (off : BitVec 6) (s : State) : Result :=
  .next (s.memWrite (baseOff6 (s.reg base) off) (s.reg sr))

end Sys2Proof.Machine
end

