-- ==== Sys2Proof/Machine/Operate.lean ====
section
/-! DEFINITION. The operate instructions ADD, AND, NOT (41_operate). The sources are read before DR is written
(R100). -/

namespace Sys2Proof.Machine

/-- A result to a destination register with its flags: the common end of the family (41 R100). -/
def operate (dr : Reg) (r : Word) (s : State) : Result := .next (s.writeDest dr r)

/-- ADD, register form (R101). -/
def execAdd (dr sr1 sr2 : Reg) (s : State) : Result := operate dr (s.reg sr1 + s.reg sr2) s

/-- ADD, immediate form (R102). -/
def execAddi (dr sr1 : Reg) (imm : BitVec 5) (s : State) : Result := operate dr (s.reg sr1 + sext imm) s

/-- AND, register form (R103). -/
def execAnd (dr sr1 sr2 : Reg) (s : State) : Result := operate dr (s.reg sr1 &&& s.reg sr2) s

/-- AND, immediate form (R104). -/
def execAndi (dr sr1 : Reg) (imm : BitVec 5) (s : State) : Result := operate dr (s.reg sr1 &&& sext imm) s

/-- NOT (R105). -/
def execNot (dr sr1 : Reg) (s : State) : Result := operate dr (~~~(s.reg sr1)) s

end Sys2Proof.Machine
end

