-- ==== Sys2Proof/Machine/Trap.lean ====
section
/-! DEFINITION. TRAP and its services (44_trap). Every TRAP writes the link first (R140). -/

namespace Sys2Proof.Machine

/-- The bytes PUTS writes for a Word: its low byte (R144). -/
def putsBytes (w : Word) : List Byte := [lowByte w]

/-- The bytes PUTSP writes for a Word: the low byte always, the high byte if it is not zero (R146). -/
def putspBytes (w : Word) : List Byte :=
  if highByte w = 0 then [lowByte w] else [lowByte w, highByte w]

/-- `KbdTake()` into x[0] with its flags, the taken character first passed to `echo` (R142, R145). -/
def takeChar (echo : Byte → State → State) (s : State) : Result :=
  match s.kbdTake with
  | some (c, t) => .next ((echo c t).writeDest 0 (zext8 c))
  | none => .fault (.awaitingInput s.output)

/-- The string at x[0], each Word written as `bytes` says, then the flush (R144, R146). A walk of 65536 Words that
meets no zero Word has seen all of memory: it never ends. -/
def putString (bytes : Word → List Byte) (s : State) : Result :=
  match s.mem.stringFrom memWords (s.reg 0) with
  | some ws => .next (s.conPut (ws.flatMap bytes)).conFlush
  | none => .fault .endlessString

/-- TRAP with an undefined vector, after the link: fatal, or nothing more, as the policy says (R148, D13). -/
def undefinedTrap (policy : UndefTrapPolicy) (s : State) : Result :=
  match policy with
  | .abort => .next (s.raiseAbort .undefinedTrap)
  | .noop => .next s

/-- GETC (R142). -/
def execTrapGetc (s : State) : Result := takeChar (fun _ t => t) s.link

/-- OUT (R143). -/
def execTrapOut (s : State) : Result := .next (s.link.conPut [lowByte (s.link.reg 0)]).conFlush

/-- PUTS (R144). -/
def execTrapPuts (s : State) : Result := putString putsBytes s.link

/-- IN: prompt, flush, take, echo, flush, store (R145, D26). -/
def execTrapIn (s : State) : Result :=
  takeChar (fun c t => (t.conPut [c]).conFlush) (s.link.conPut params.inPrompt).conFlush

/-- PUTSP (R146). -/
def execTrapPutsp (s : State) : Result := putString putspBytes s.link

/-- HALT (R147). -/
def execTrapHalt (s : State) : Result :=
  .next ((s.link.conPut params.haltNotice).conFlush.setRun .halted)

/-- TRAP with a vector 0x00 to 0x1F (R148). -/
def execTrapUndef00 (s : State) : Result := undefinedTrap params.undefTrapPolicy s.link

/-- TRAP with a vector 0x26 to 0x27 (R148). -/
def execTrapUndef26 (s : State) : Result := undefinedTrap params.undefTrapPolicy s.link

/-- TRAP with a vector 0x28 to 0x2F (R148). -/
def execTrapUndef28 (s : State) : Result := undefinedTrap params.undefTrapPolicy s.link

/-- TRAP with a vector 0x30 to 0x3F (R148). -/
def execTrapUndef30 (s : State) : Result := undefinedTrap params.undefTrapPolicy s.link

/-- TRAP with a vector 0x40 to 0x7F (R148). -/
def execTrapUndef40 (s : State) : Result := undefinedTrap params.undefTrapPolicy s.link

/-- TRAP with a vector 0x80 to 0xFF (R148). -/
def execTrapUndef80 (s : State) : Result := undefinedTrap params.undefTrapPolicy s.link

end Sys2Proof.Machine
end

