-- ==== Sys2Proof/Machine/Unimplemented.lean ====
section
/-! DEFINITION. The unimplemented opcodes RTI and RES: their effect is the fatal condition (45_unimplemented). -/

namespace Sys2Proof.Machine

/-- RTI (R161). -/
def execRti (s : State) : Result := .next (s.raiseAbort .rtiUnimplemented)

/-- RES (R162). -/
def execRes (s : State) : Result := .next (s.raiseAbort .resUnimplemented)

end Sys2Proof.Machine
end

