-- ==== Sys2Proof/Machine/Step.lean ====
section
/-! DEFINITION. One cycle of the engine (40_execution_cycle R90), enabled only while `run` is RUNNING (R93), and the
placing of an instruction where the next cycle fetches it. -/

namespace Sys2Proof.Machine

/-- `Step()` (40 R90): the fetch with the increment of `pc`, then the dispatch. -/
def step (s : State) : Host.Outcome State Fault Refusal :=
  match stopOf s.run with
  | some f => .fault f
  | none => exec (decode s.fetch.1) s.fetch.2

/-- The Word of a table instruction stored where the next step fetches it (log 14). A fetch from `KBSR_ADDR` reads
the status word and never a stored one (20_memory R50), so there the fetch needs another address: the load address;
and the engine fetches only while it runs. -/
def State.withFetchWord (s : State) (nbits w : Nat) : State :=
  let a := if s.pc = params.kbsrAddr then Config.loadAddress else s.pc
  { s with pc := a, run := .running, mem := s.mem.setWord a (BitVec.ofNat 16 (w % 2 ^ nbits)) }

end Sys2Proof.Machine
end

