-- ==== Sys2Proof/Machine/Boot.lean ====
section
/-! DEFINITION. The launch state: reset with the host's images in memory (70_reset_and_hazards R202, R207). Loading is
the host's, before the engine starts; no step does it (00_scope R5; log 19). -/

namespace Sys2Proof.Machine

/-- The Words of an image, each stored big-endian, copied to rising addresses; what would lie beyond address 0xFFFF is
dropped, and so is a trailing odd byte (70 R207). -/
def Memory.loadWords (m : Memory) (a : Nat) : List Byte → Memory
  | hi :: lo :: rest =>
    if a < memWords then Memory.loadWords (Memory.setWord m (BitVec.ofNat 16 a) (joinBytes hi lo)) (a + 1) rest else m
  | _ => m

/-- `LoadImage(bytes)` (70 R207): the first Word is the origin. A file of fewer than two bytes has none (N14). -/
def Memory.loadImage (m : Memory) : List Byte → Option Memory
  | hi :: lo :: rest => some (Memory.loadWords m (joinBytes hi lo).toNat rest)
  | _ => none

/-- The launch state (10_state R36): `GPR_RESET`, `INIT_MEM` and the environment are the host's choice. -/
def State.launch (gprReset : Vector Word 8) (initMem : Memory) (input : List Byte) (answers : List Bool) : State :=
  { State.reset with x := gprReset, mem := initMem, input := input, answers := answers }

end Sys2Proof.Machine
end

