-- ==== Sys2Proof/Safety.lean ====
section
/-! DEFINITION. The terms claims are stated in: the invariant of the machine, the runs, the end of a run, and what
an instruction leaves unchanged. -/

namespace Sys2Proof.Machine

/-- The invariant every step keeps: memory is canonical, and no more output is visible than was written. -/
abbrev State.Inv (s : State) : Prop := Memory.wf s.mem ∧ s.flushed ≤ s.output.length

/-- `t` is reached from `s` in zero or more cycles (40 R90, `Run()`). -/
inductive Reaches : State → State → Prop where
  | refl (s : State) : Reaches s s
  | tail {s t u : State} : Reaches s t → step t = .next u → Reaches s u

/-- A run that ends as the spec wants it: HALTED, never ABORTED (60 R171). -/
def State.completes (s : State) : Prop := ∃ t, Reaches s t ∧ t.run = .halted

/-- Every general register outside the list is unchanged. -/
def RegsSameBut (changed : List Reg) (s t : State) : Prop := ∀ r : Reg, r ∉ changed → t.reg r = s.reg r

/-- Every byte of memory is unchanged. -/
def MemSame (s t : State) : Prop := ∀ b : Nat, t.mem.byte b = s.mem.byte b

/-- Every byte of memory outside the Word at `a` is unchanged. -/
def MemSameBut (a : Word) (s t : State) : Prop := ∀ b : Nat, b / 2 ≠ a.toNat → t.mem.byte b = s.mem.byte b

/-- No character taken, no poll made. -/
def InputSame (s t : State) : Prop := t.input = s.input ∧ t.answers = s.answers ∧ t.polls = s.polls

/-- Nothing written to the console, nothing flushed. -/
def OutputSame (s t : State) : Prop := t.output = s.output ∧ t.flushed = s.flushed

/-- Every byte of memory outside the two keyboard Words is unchanged (20_memory R42). -/
def MemSameButKeyboard (s t : State) : Prop :=
  ∀ b : Nat, b / 2 ≠ params.kbsrAddr.toNat → b / 2 ≠ params.kbdrAddr.toNat → t.mem.byte b = s.mem.byte b

/-- Memory and input in `t` are as the reads of the instruction left them, in `u`. -/
def MemInputOf (u t : State) : Prop := t.mem = u.mem ∧ InputSame u t

/-- Nothing but the destination register and the condition code changes. -/
def OnlyDest (dr : Reg) (s t : State) : Prop :=
  RegsSameBut [dr] s t ∧ t.pc = s.pc ∧ t.run = s.run ∧ MemSame s t ∧ InputSame s t ∧ OutputSame s t

/-- Nothing but the program counter and the listed registers changes. -/
def OnlyPcAnd (changed : List Reg) (s t : State) : Prop :=
  RegsSameBut changed s t ∧ t.cc = s.cc ∧ t.run = s.run ∧ MemSame s t ∧ InputSame s t ∧ OutputSame s t

/-- Nothing but the Word of memory at `a` changes. -/
def OnlyWord (a : Word) (s t : State) : Prop :=
  RegsSameBut [] s t ∧ t.pc = s.pc ∧ t.cc = s.cc ∧ t.run = s.run ∧ MemSameBut a s t ∧ InputSame s t ∧ OutputSame s t

/-- Nothing but the link and the output stream changes. -/
def OnlyLinkAndOutput (s t : State) : Prop :=
  RegsSameBut [7] s t ∧ t.pc = s.pc ∧ t.cc = s.cc ∧ t.run = s.run ∧ MemSame s t ∧ InputSame s t

/-- Nothing but the run state and the listed registers changes. -/
def OnlyRunAnd (changed : List Reg) (s t : State) : Prop :=
  RegsSameBut changed s t ∧ t.pc = s.pc ∧ t.cc = s.cc ∧ MemSame s t ∧ InputSame s t ∧ OutputSame s t

/-! ### What the rules say of each instruction: tables of the spec -/

/-- The general registers an instruction writes (10_state R23). -/
def regsWritten : Instr → List Reg
  | .br _ _ _ _ => []
  | .add dr _ _ => [dr]
  | .addi dr _ _ => [dr]
  | .ld dr _ => [dr]
  | .st _ _ => []
  | .jsrr _ => [7]
  | .jsr _ => [7]
  | .and dr _ _ => [dr]
  | .andi dr _ _ => [dr]
  | .ldr dr _ _ => [dr]
  | .str _ _ _ => []
  | .rti => []
  | .not dr _ => [dr]
  | .ldi dr _ => [dr]
  | .sti _ _ => []
  | .jmp _ => []
  | .res => []
  | .lea dr _ => [dr]
  | .trapGetc => [0, 7]
  | .trapOut => [7]
  | .trapPuts => [7]
  | .trapIn => [0, 7]
  | .trapPutsp => [7]
  | .trapHalt => [7]
  | .trapUndef00 _ => [7]
  | .trapUndef26 _ => [7]
  | .trapUndef28 _ => [7]
  | .trapUndef30 _ => [7]
  | .trapUndef40 _ => [7]
  | .trapUndef80 _ => [7]

/-- The register on whose new value an instruction sets the condition code, if it does (10_state R29). -/
def flagReg : Instr → Option Reg
  | .br _ _ _ _ => none
  | .add dr _ _ => some dr
  | .addi dr _ _ => some dr
  | .ld dr _ => some dr
  | .st _ _ => none
  | .jsrr _ => none
  | .jsr _ => none
  | .and dr _ _ => some dr
  | .andi dr _ _ => some dr
  | .ldr dr _ _ => some dr
  | .str _ _ _ => none
  | .rti => none
  | .not dr _ => some dr
  | .ldi dr _ => some dr
  | .sti _ _ => none
  | .jmp _ => none
  | .res => none
  | .lea dr _ => some dr
  | .trapGetc => some 0
  | .trapOut => none
  | .trapPuts => none
  | .trapIn => some 0
  | .trapPutsp => none
  | .trapHalt => none
  | .trapUndef00 _ => none
  | .trapUndef26 _ => none
  | .trapUndef28 _ => none
  | .trapUndef30 _ => none
  | .trapUndef40 _ => none
  | .trapUndef80 _ => none

/-- `pc` at the end of an instruction, from the state after the fetch (10_state R25). -/
def nextPc (s : State) : Instr → Word
  | .br n z p off => if branchTaken n z p s.cc then pcRel9 s.pc off else s.pc
  | .add _ _ _ => s.pc
  | .addi _ _ _ => s.pc
  | .ld _ _ => s.pc
  | .st _ _ => s.pc
  | .jsrr base => if base = 7 then s.pc else s.reg base
  | .jsr off => pcRel11 s.pc off
  | .and _ _ _ => s.pc
  | .andi _ _ _ => s.pc
  | .ldr _ _ _ => s.pc
  | .str _ _ _ => s.pc
  | .rti => s.pc
  | .not _ _ => s.pc
  | .ldi _ _ => s.pc
  | .sti _ _ => s.pc
  | .jmp base => s.reg base
  | .res => s.pc
  | .lea _ _ => s.pc
  | .trapGetc => s.pc
  | .trapOut => s.pc
  | .trapPuts => s.pc
  | .trapIn => s.pc
  | .trapPutsp => s.pc
  | .trapHalt => s.pc
  | .trapUndef00 _ => s.pc
  | .trapUndef26 _ => s.pc
  | .trapUndef28 _ => s.pc
  | .trapUndef30 _ => s.pc
  | .trapUndef40 _ => s.pc
  | .trapUndef80 _ => s.pc

/-- The run state an instruction writes, if it writes one (10_state R31, 60_exceptions R170). -/
def runWritten : Instr → Option RunState
  | .br _ _ _ _ => none
  | .add _ _ _ => none
  | .addi _ _ _ => none
  | .ld _ _ => none
  | .st _ _ => none
  | .jsrr _ => none
  | .jsr _ => none
  | .and _ _ _ => none
  | .andi _ _ _ => none
  | .ldr _ _ _ => none
  | .str _ _ _ => none
  | .rti => some (.aborted .rtiUnimplemented)
  | .not _ _ => none
  | .ldi _ _ => none
  | .sti _ _ => none
  | .jmp _ => none
  | .res => some (.aborted .resUnimplemented)
  | .lea _ _ => none
  | .trapGetc => none
  | .trapOut => none
  | .trapPuts => none
  | .trapIn => none
  | .trapPutsp => none
  | .trapHalt => some .halted
  | .trapUndef00 _ => some (.aborted .undefinedTrap)
  | .trapUndef26 _ => some (.aborted .undefinedTrap)
  | .trapUndef28 _ => some (.aborted .undefinedTrap)
  | .trapUndef30 _ => some (.aborted .undefinedTrap)
  | .trapUndef40 _ => some (.aborted .undefinedTrap)
  | .trapUndef80 _ => some (.aborted .undefinedTrap)

/-- The intercepted reads after the fetch, in order (20_memory R47): the address of each. -/
def readsOf (s : State) : Instr → List Word
  | .br _ _ _ _ => []
  | .add _ _ _ => []
  | .addi _ _ _ => []
  | .ld _ off => [pcRel9 s.pc off]
  | .st _ _ => []
  | .jsrr _ => []
  | .jsr _ => []
  | .and _ _ _ => []
  | .andi _ _ _ => []
  | .ldr _ base off => [baseOff6 (s.reg base) off, (s.memRead (baseOff6 (s.reg base) off)).1]
  | .str _ _ _ => []
  | .rti => []
  | .not _ _ => []
  | .ldi _ off => [pcRel9 s.pc off, (s.memRead (pcRel9 s.pc off)).1]
  | .sti _ off => [pcRel9 s.pc off]
  | .jmp _ => []
  | .res => []
  | .lea _ _ => []
  | .trapGetc => []
  | .trapOut => []
  | .trapPuts => []
  | .trapIn => []
  | .trapPutsp => []
  | .trapHalt => []
  | .trapUndef00 _ => []
  | .trapUndef26 _ => []
  | .trapUndef28 _ => []
  | .trapUndef30 _ => []
  | .trapUndef40 _ => []
  | .trapUndef80 _ => []

/-- The address an instruction stores to, if it stores (20_memory R47). -/
def storeOf (s : State) : Instr → Option Word
  | .br _ _ _ _ => none
  | .add _ _ _ => none
  | .addi _ _ _ => none
  | .ld _ _ => none
  | .st _ off => some (pcRel9 s.pc off)
  | .jsrr _ => none
  | .jsr _ => none
  | .and _ _ _ => none
  | .andi _ _ _ => none
  | .ldr _ _ _ => none
  | .str _ base off => some (baseOff6 (s.reg base) off)
  | .rti => none
  | .not _ _ => none
  | .ldi _ _ => none
  | .sti _ off => some (s.memRead (pcRel9 s.pc off)).1
  | .jmp _ => none
  | .res => none
  | .lea _ _ => none
  | .trapGetc => none
  | .trapOut => none
  | .trapPuts => none
  | .trapIn => none
  | .trapPutsp => none
  | .trapHalt => none
  | .trapUndef00 _ => none
  | .trapUndef26 _ => none
  | .trapUndef28 _ => none
  | .trapUndef30 _ => none
  | .trapUndef40 _ => none
  | .trapUndef80 _ => none

end Sys2Proof.Machine
end

