-- ==== Sys2Proof/Certificates/Slice0/Obligations.lean ====
section
/-! DEFINITION. The statements for the provers. Each says what an instruction or the machine does, in the terms of
Safety.lean; a docstring cites the rule. The addresses stored to are the expressions the meanings use. -/

open Sys2Proof Sys2Proof.Machine

/-! ## Encoding -/

/-- 30_encoding R76, 95_test_vectors V-D: a few Words, written out from their formats, decode as the spec says. The
numbers and places of the bits are the spec's own choice (log 1). -/
def Obligations.SampleWordsDecodeAsTheSpecSays : Prop :=
  decode 0b0001_010_001_0_00_000#16 = .add 2 1 0 ∧
  decode 0b0101_001_010_1_10000#16 = .andi 1 2 0b10000 ∧
  decode 0b0000_010_000000101#16 = .br false true false 5 ∧
  decode 0b0110_001_010_000011#16 = .ldr 1 2 3 ∧
  decode 0b0111_001_010_000011#16 = .str 1 2 3 ∧
  decode 0b1111_0000_00100101#16 = .trapHalt ∧
  decode 0b1000_000000000000#16 = .rti

/-- 30_encoding R76: every Word belongs to exactly one row of the table, the row of the instruction it decodes to.
The numbers and places of the bits are the spec's own choice (log 1). -/
def Obligations.EveryWordMatchesExactlyItsRow : Prop :=
  ∀ w : Word, decodeRows.filter (fun r => rowMatches r w) = [rowOf (decode w)]

/-- 30_encoding R63, R76: decoding the Word of a well-formed instruction gives it back, every operand at every
value. The numbers and places of the bits are the spec's own choice (log 1). -/
def Obligations.DecodeOfEncodeIsTheInstruction : Prop :=
  ∀ i : Instr, i.wellFormed = true → decode (encode i) = i

/-- 30_encoding R62, R76: what the decoder reads is well formed, and no bit a field or the opcode covers is lost.
The numbers and places of the bits are the spec's own choice (log 1). -/
def Obligations.DecodeLosesNoCoveredBit : Prop :=
  ∀ w : Word, (decode w).wellFormed = true ∧
    encode (decode w) &&& ~~~(uncoveredBits (decode w)) = w &&& ~~~(uncoveredBits (decode w))

/-- 30_encoding R77: any value in the bits no field covers gives the same instruction; the encoder puts the
conventional values there: ones for NOT, zeros elsewhere. The numbers and places of the bits are the spec's own
choice (log 1). That they are ignored is its decision D7 (log 12). -/
def Obligations.UncoveredBitsAreIgnored : Prop :=
  (∀ w v : Word,
    decode ((w &&& ~~~(uncoveredBits (decode w))) ||| (v &&& uncoveredBits (decode w))) = decode w) ∧
  (∀ dr sr1 : Reg, encode (.not dr sr1) &&& uncoveredBits (.not dr sr1) = 0x003F) ∧
  (∀ i : Instr, (∀ dr sr1, i ≠ .not dr sr1) → encode i &&& uncoveredBits i = 0)

/-! ## Operands -/

/-- 30_encoding R70: sign extension of the low `n` bits, in the rule's own form, as an integer, its range, and the
rule's examples. -/
def Obligations.SignExtensionReplicatesTheSignBit : Prop :=
  (∀ (n : Nat) (v : Word), 1 ≤ n → n ≤ 16 →
    sext (v.setWidth n) =
      if v.getLsbD (n - 1) then (0xFFFF#16 <<< n) ||| (v.setWidth n).setWidth 16 else (v.setWidth n).setWidth 16) ∧
  (∀ (n : Nat) (v : BitVec n), n ≤ 16 → (sext v).toInt = v.toInt) ∧
  (∀ (n : Nat) (v : BitVec n), 1 ≤ n → n ≤ 16 →
    -(2 ^ (n - 1) : Int) ≤ (sext v).toInt ∧ (sext v).toInt < (2 ^ (n - 1) : Int)) ∧
  sext 0b11111#5 = 0xFFFF ∧ sext 0b10000#5 = 0xFFF0 ∧ sext 0b01111#5 = 0x000F ∧ sext 0x1FF#9 = 0xFFFF ∧
  sext 0x100#9 = 0xFF00 ∧ sext 0x20#6 = 0xFFE0 ∧ sext 0x400#11 = 0xFC00 ∧ sext 0x3FF#11 = 0x03FF

/-- 30_encoding R72: the address sums, as integers modulo 2^16, the offsets signed and not scaled. The wrap is the
spec's decision D17 (log 15). -/
def Obligations.AddressSumsWrapModulo : Prop :=
  (∀ (pc : Word) (off : BitVec 9), ((pcRel9 pc off).toNat : Int) = (pc.toNat + off.toInt) % 65536) ∧
  (∀ (pc : Word) (off : BitVec 11), ((pcRel11 pc off).toNat : Int) = (pc.toNat + off.toInt) % 65536) ∧
  (∀ (base : Word) (off : BitVec 6), ((baseOff6 base off).toNat : Int) = (base.toNat + off.toInt) % 65536)

/-! ## Registers, condition code, memory interface -/

/-- 10_state R22: a write replaces all 16 bits of one register and has no other effect. -/
def Obligations.RegisterWriteHasNoOtherEffect : Prop :=
  ∀ (s : State) (i : Reg) (v : Word),
    (s.setReg i v).reg i = v ∧ (s.setReg i v).cc = s.cc ∧ RegsSameBut [i] s (s.setReg i v) ∧
    (s.setReg i v).pc = s.pc ∧ (s.setReg i v).run = s.run ∧ (s.setReg i v).mem = s.mem ∧
    InputSame s (s.setReg i v) ∧ OutputSame s (s.setReg i v)

/-- 10_state R28: the three cases of the flag update, which writes nothing but `cc`. -/
def Obligations.SetccFollowsTheValue : Prop :=
  ∀ (s : State) (v : Word),
    (v.toNat = 0 → (s.setcc v).cc = .zero) ∧
    (1 ≤ v.toNat ∧ v.toNat ≤ 0x7FFF → (s.setcc v).cc = .pos) ∧
    (0x8000 ≤ v.toNat → (s.setcc v).cc = .neg) ∧
    s.setcc v = { s with cc := (s.setcc v).cc }

/-- 20_memory R41: only a read of the status address is intercepted; every other read, of the keyboard data
address too, returns the stored Word and changes nothing. -/
def Obligations.OnlyStatusReadsAreIntercepted : Prop :=
  ∀ s : State,
    (∀ a : Word, a ≠ params.kbsrAddr → s.memRead a = (s.mem.word a, s)) ∧
    s.memRead params.kbdrAddr = (s.mem.word params.kbdrAddr, s) ∧
    s.memRead params.kbsrAddr = (s.kbdIntercept.mem.word params.kbsrAddr, s.kbdIntercept)

/-- 20_memory R42: the keyboard interception, both answers of the poll. The bookkeeping of the answers is the
model's (log 4). The exact status Word and the consumed character are the spec's decisions D10, D11 (log 13). -/
def Obligations.KeyboardPollLatchesOrClears : Prop :=
  ∀ s : State,
    (s.kbdAvail = true → ∃ c rest, s.input = c :: rest ∧ s.kbdIntercept.input = rest ∧
      s.kbdIntercept.mem.word params.kbsrAddr = 0x8000 ∧
      (s.kbdIntercept.mem.word params.kbdrAddr).toNat = c.toNat) ∧
    (s.kbdAvail = false → s.kbdIntercept.input = s.input ∧
      s.kbdIntercept.mem.word params.kbsrAddr = 0x0000 ∧
      s.kbdIntercept.mem.word params.kbdrAddr = s.mem.word params.kbdrAddr) ∧
    MemSameButKeyboard s s.kbdIntercept ∧ RegsSameBut [] s s.kbdIntercept ∧ s.kbdIntercept.pc = s.pc ∧
    s.kbdIntercept.cc = s.cc ∧ s.kbdIntercept.run = s.run ∧ OutputSame s s.kbdIntercept ∧
    params.kbsrAddr ≠ params.kbdrAddr

/-- 20_memory R43: a store is unconditional, at the keyboard addresses too; the next status read overwrites the
stored status Word, and the stored data Word too if input is available. -/
def Obligations.StoresAreUnconditional : Prop :=
  ∀ (s : State) (a v : Word),
    (s.memWrite a v).mem.word a = v ∧ OnlyWord a s (s.memWrite a v) ∧
    ((s.memWrite params.kbsrAddr v).memRead params.kbsrAddr).1 = (s.memRead params.kbsrAddr).1 ∧
    (s.kbdAvail = true → ((s.memWrite params.kbdrAddr v).memRead params.kbsrAddr).2.mem.word params.kbdrAddr =
      (s.memRead params.kbsrAddr).2.mem.word params.kbdrAddr) ∧
    (s.kbdAvail = false → ((s.memWrite params.kbdrAddr v).memRead params.kbsrAddr).2.mem.word params.kbdrAddr = v)

/-! ## The cycle -/

/-- 40_execution_cycle R90: a step of a running engine reads the Word at `pc` (intercepted like any read),
increments `pc` modulo 2^16, and executes the decoded instruction. The wrap is the spec's decision D17 (log 15).
That the fetch is intercepted is its decision D9 (log 13). -/
def Obligations.StepRunsTheDecodedInstruction : Prop :=
  ∀ s : State, s.run = .running →
    step s = exec (decode (s.memRead s.pc).1) ((s.memRead s.pc).2.setPc (s.pc + 1)) ∧
    (s.pc + 1).toNat = (s.pc.toNat + 1) % 65536 ∧
    (s.pc ≠ params.kbsrAddr → step s = exec (decode (s.mem.word s.pc)) (s.setPc (s.pc + 1)))

/-- 40_execution_cycle R93: the engine has no step once `run` is HALTED or ABORTED. That the step then answers a
fault is the model's form (log 8, log 9). -/
def Obligations.NoStepOnceStopped : Prop :=
  ∀ s : State, (s.run = .halted → step s = .fault .halted) ∧
    (∀ c, s.run = .aborted c → step s = .fault (.aborted c))

/-- The model's own placing of an instruction (log 14): the very next step executes it. The numbers and places of
the bits are the spec's own choice (log 1). -/
def Obligations.PlacedWordIsExecutedNext : Prop :=
  ∀ (s : State) (w : Word), ∃ u, s.withFetchWord 16 w.toNat = u ∧ u.mem.word u.pc = w ∧
    step u = exec (decode w) (u.setPc (u.pc + 1)) ∧ (s.pc ≠ params.kbsrAddr → u.pc = s.pc)

/-- 20_memory R50: a fetch from the status address polls; with a character it is RTI and aborts, without one it is a
no-op, whatever was stored there (95 V-K-6, V-K-7). That the fetch is intercepted is its decision D9 (log 13). -/
def Obligations.FetchFromStatusAddressPolls : Prop :=
  ∀ s : State, s.run = .running → s.pc = params.kbsrAddr → ∃ t, step s = .next t ∧
    t.pc = s.pc + 1 ∧ RegsSameBut [] s t ∧ t.cc = s.cc ∧ OutputSame s t ∧ MemInputOf s.kbdIntercept t ∧
    (s.kbdAvail = true → t.run = .aborted .rtiUnimplemented) ∧ (s.kbdAvail = false → t.run = .running)

/-! ## Operate instructions -/

/-- 41_operate R101: ADD, register form. The numbers and places of the bits are the spec's own choice (log 1). The
wrap is the spec's decision D17 (log 15). -/
def Obligations.AddRegisterForm : Prop :=
  (∀ w : Word, w &&& 0xF020 = 0x1000 → decode w = .add (regField w 9) (regField w 6) (regField w 0)) ∧
  ∀ (dr sr1 sr2 : Reg) (s : State), ∃ t, exec (.add dr sr1 sr2) s = .next t ∧
    (t.reg dr).toNat = ((s.reg sr1).toNat + (s.reg sr2).toNat) % 65536 ∧ t.cc = condOf (t.reg dr) ∧ OnlyDest dr s t

/-- 41_operate R102: ADD, immediate form; the immediate is signed. The numbers and places of the bits are the spec's
own choice (log 1). The wrap is the spec's decision D17 (log 15). -/
def Obligations.AddImmediateForm : Prop :=
  (∀ w : Word, w &&& 0xF020 = 0x1020 →
    decode w = .addi (regField w 9) (regField w 6) (w.extractLsb' 0 5)) ∧
  ∀ (dr sr1 : Reg) (imm : BitVec 5) (s : State), ∃ t, exec (.addi dr sr1 imm) s = .next t ∧
    ((t.reg dr).toNat : Int) = ((s.reg sr1).toNat + imm.toInt) % 65536 ∧ t.cc = condOf (t.reg dr) ∧ OnlyDest dr s t

/-- 41_operate R103: AND, register form, bit by bit. The numbers and places of the bits are the spec's own choice
(log 1). -/
def Obligations.AndRegisterForm : Prop :=
  (∀ w : Word, w &&& 0xF020 = 0x5000 → decode w = .and (regField w 9) (regField w 6) (regField w 0)) ∧
  ∀ (dr sr1 sr2 : Reg) (s : State), ∃ t, exec (.and dr sr1 sr2) s = .next t ∧
    (∀ k : Nat, (t.reg dr).getLsbD k = ((s.reg sr1).getLsbD k && (s.reg sr2).getLsbD k)) ∧
    t.cc = condOf (t.reg dr) ∧ OnlyDest dr s t

/-- 41_operate R104: AND, immediate form: the low five bits with the immediate, the upper eleven with its sign. The
numbers and places of the bits are the spec's own choice (log 1). -/
def Obligations.AndImmediateForm : Prop :=
  (∀ w : Word, w &&& 0xF020 = 0x5020 →
    decode w = .andi (regField w 9) (regField w 6) (w.extractLsb' 0 5)) ∧
  ∀ (dr sr1 : Reg) (imm : BitVec 5) (s : State), ∃ t, exec (.andi dr sr1 imm) s = .next t ∧
    (∀ k : Nat, k < 16 →
      (t.reg dr).getLsbD k = ((s.reg sr1).getLsbD k && (if k < 5 then imm.getLsbD k else imm.getLsbD 4))) ∧
    t.cc = condOf (t.reg dr) ∧ OnlyDest dr s t

/-- 41_operate R105: NOT. The numbers and places of the bits are the spec's own choice (log 1). -/
def Obligations.NotComplements : Prop :=
  (∀ w : Word, w &&& 0xF000 = 0x9000 → decode w = .not (regField w 9) (regField w 6)) ∧
  ∀ (dr sr1 : Reg) (s : State), ∃ t, exec (.not dr sr1) s = .next t ∧
    (t.reg dr).toNat = 0xFFFF - (s.reg sr1).toNat ∧ t.cc = condOf (t.reg dr) ∧ OnlyDest dr s t

/-- 41_operate R106: the arithmetic laws, as sequences of instructions: NOT then ADD #1 negates, NOT twice and ADD
#1 then ADD #-1 restore the register, ADD commutes, AND with #0 clears and sets ZERO, AND with #-1 copies. The wrap
is the spec's decision D17 (log 15). -/
def Obligations.ArithmeticLawsOfSequences : Prop :=
  ∀ (r d a b : Reg) (s : State),
    (∃ t u, exec (.not r r) s = .next t ∧ exec (.addi r r 1) t = .next u ∧
      (u.reg r).toNat = (65536 - (s.reg r).toNat) % 65536) ∧
    (∃ t u, exec (.not r r) s = .next t ∧ exec (.not r r) t = .next u ∧ u.reg r = s.reg r) ∧
    (∃ t u, exec (.addi r r 1) s = .next t ∧ exec (.addi r r 0b11111) t = .next u ∧ u.reg r = s.reg r) ∧
    exec (.add d a b) s = exec (.add d b a) s ∧
    (∃ t, exec (.andi r r 0) s = .next t ∧ t.reg r = 0 ∧ t.cc = .zero) ∧
    (∃ t, exec (.andi d a 0b11111) s = .next t ∧ t.reg d = s.reg a)

/-! ## Control transfer -/

/-- 42_control R111: BR: taken when the bit of the current condition code is set. The numbers and places of the bits
are the spec's own choice (log 1). The wrap is the spec's decision D17 (log 15). -/
def Obligations.BranchOnConditionCode : Prop :=
  (∀ w : Word, w &&& 0xF000 = 0x0000 → decode w = .br w[11] w[10] w[9] (w.extractLsb' 0 9)) ∧
  ∀ (n z p : Bool) (off : BitVec 9) (s : State), ∃ t, exec (.br n z p off) s = .next t ∧
    ((n = true ∧ s.cc = .neg) ∨ (z = true ∧ s.cc = .zero) ∨ (p = true ∧ s.cc = .pos) →
      (t.pc.toNat : Int) = (s.pc.toNat + off.toInt) % 65536) ∧
    (¬((n = true ∧ s.cc = .neg) ∨ (z = true ∧ s.cc = .zero) ∨ (p = true ∧ s.cc = .pos)) → t.pc = s.pc) ∧
    OnlyPcAnd [] s t

/-- 30_encoding R79: BR with n = z = p = 0 does nothing; with all three set it always branches (42 R111). -/
def Obligations.BranchWithNoBitsIsANop : Prop :=
  ∀ (off : BitVec 9) (s : State), exec (.br false false false off) s = .next s ∧
    exec (.br true true true off) s = .next (s.setPc (pcRel9 s.pc off))

/-- 42_control R112: JMP, RET among it. The numbers and places of the bits are the spec's own choice (log 1). -/
def Obligations.JumpThroughBaseRegister : Prop :=
  (∀ w : Word, w &&& 0xF000 = 0xC000 → decode w = .jmp (regField w 6)) ∧ decode 0xC1C0 = .jmp 7 ∧
  ∀ (base : Reg) (s : State), ∃ t, exec (.jmp base) s = .next t ∧ t.pc = s.reg base ∧ OnlyPcAnd [] s t

/-- 42_control R113: JSR links, then adds the signed PCoffset11. The numbers and places of the bits are the spec's
own choice (log 1). The wrap is the spec's decision D17 (log 15). -/
def Obligations.JsrLinksThenJumps : Prop :=
  (∀ w : Word, w &&& 0xF800 = 0x4800 → decode w = .jsr (w.extractLsb' 0 11)) ∧
  ∀ (off : BitVec 11) (s : State), ∃ t, exec (.jsr off) s = .next t ∧ t.reg 7 = s.pc ∧
    (t.pc.toNat : Int) = (s.pc.toNat + off.toInt) % 65536 ∧ OnlyPcAnd [7] s t

/-- 42_control R114: JSRR links first and reads the base register after, so `JSRR R7` does not jump. The numbers and
places of the bits are the spec's own choice (log 1). -/
def Obligations.JsrrLinksBeforeReadingTheBase : Prop :=
  (∀ w : Word, w &&& 0xF800 = 0x4000 → decode w = .jsrr (regField w 6)) ∧
  ∀ (base : Reg) (s : State), ∃ t, exec (.jsrr base) s = .next t ∧ t.reg 7 = s.pc ∧
    (base = 7 → t.pc = s.pc) ∧ (base ≠ 7 → t.pc = s.reg base) ∧ OnlyPcAnd [7] s t

/-- 42_control R115: a call followed by RET comes back to the instruction after the call. -/
def Obligations.CallThenRetReturns : Prop :=
  ∀ (off : BitVec 11) (base : Reg) (s : State),
    (∃ t u, exec (.jsr off) s = .next t ∧ exec (.jmp 7) t = .next u ∧ u.pc = s.pc) ∧
    (∃ t u, exec (.jsrr base) s = .next t ∧ exec (.jmp 7) t = .next u ∧ u.pc = s.pc)

/-! ## Loads and stores -/

/-- 43_load_store R122: LD. The numbers and places of the bits are the spec's own choice (log 1). -/
def Obligations.LdLoadsPcRelative : Prop :=
  (∀ w : Word, w &&& 0xF000 = 0x2000 → decode w = .ld (regField w 9) (w.extractLsb' 0 9)) ∧
  ∀ (dr : Reg) (off : BitVec 9) (s : State), ∃ t, exec (.ld dr off) s = .next t ∧
    t.reg dr = (s.memRead (pcRel9 s.pc off)).1 ∧ t.cc = condOf (t.reg dr) ∧
    (pcRel9 s.pc off ≠ params.kbsrAddr → t.reg dr = s.mem.word (pcRel9 s.pc off) ∧ MemSame s t ∧ InputSame s t) ∧
    MemInputOf (s.memRead (pcRel9 s.pc off)).2 t ∧
    RegsSameBut [dr] s t ∧ t.pc = s.pc ∧ t.run = s.run ∧ OutputSame s t

/-- 43_load_store R123: LDI: the two reads in order; the second gives the value and the flags. The numbers and
places of the bits are the spec's own choice (log 1). The order of the accesses is D19 (log 22). -/
def Obligations.LdiLoadsIndirect : Prop :=
  (∀ w : Word, w &&& 0xF000 = 0xA000 → decode w = .ldi (regField w 9) (w.extractLsb' 0 9)) ∧
  ∀ (dr : Reg) (off : BitVec 9) (s : State),
    ∃ p u t, s.memRead (pcRel9 s.pc off) = (p, u) ∧ exec (.ldi dr off) s = .next t ∧
    t.reg dr = (u.memRead p).1 ∧ t.cc = condOf (t.reg dr) ∧
    (pcRel9 s.pc off ≠ params.kbsrAddr → s.mem.word (pcRel9 s.pc off) ≠ params.kbsrAddr →
      t.reg dr = s.mem.word (s.mem.word (pcRel9 s.pc off)) ∧ MemSame s t ∧ InputSame s t) ∧
    MemInputOf (u.memRead p).2 t ∧ RegsSameBut [dr] s t ∧ t.pc = s.pc ∧ t.run = s.run ∧ OutputSame s t

/-- 43_load_store R124: LDR reads twice: the Word at base plus offset is the address of the value. The numbers and
places of the bits are the spec's own choice (log 1). The double read is kept by D27 (log 16). The order of the
accesses is D19 (log 22). -/
def Obligations.LdrReadsTwice : Prop :=
  (∀ w : Word, w &&& 0xF000 = 0x6000 →
    decode w = .ldr (regField w 9) (regField w 6) (w.extractLsb' 0 6)) ∧
  ∀ (dr base : Reg) (off : BitVec 6) (s : State),
    ∃ p u t, s.memRead (baseOff6 (s.reg base) off) = (p, u) ∧ exec (.ldr dr base off) s = .next t ∧
    t.reg dr = (u.memRead p).1 ∧ t.cc = condOf (t.reg dr) ∧
    (baseOff6 (s.reg base) off ≠ params.kbsrAddr → s.mem.word (baseOff6 (s.reg base) off) ≠ params.kbsrAddr →
      t.reg dr = s.mem.word (s.mem.word (baseOff6 (s.reg base) off)) ∧ MemSame s t ∧ InputSame s t) ∧
    MemInputOf (u.memRead p).2 t ∧ RegsSameBut [dr] s t ∧ t.pc = s.pc ∧ t.run = s.run ∧ OutputSame s t

/-- 43_load_store R125: LEA computes the address alone and sets the flags from it; the status address is not polled.
The numbers and places of the bits are the spec's own choice (log 1). The wrap is the spec's decision D17 (log 15). -/
def Obligations.LeaComputesTheAddress : Prop :=
  (∀ w : Word, w &&& 0xF000 = 0xE000 → decode w = .lea (regField w 9) (w.extractLsb' 0 9)) ∧
  ∀ (dr : Reg) (off : BitVec 9) (s : State), ∃ t, exec (.lea dr off) s = .next t ∧
    ((t.reg dr).toNat : Int) = (s.pc.toNat + off.toInt) % 65536 ∧ t.cc = condOf (t.reg dr) ∧ OnlyDest dr s t

/-- 43_load_store R126: ST. The numbers and places of the bits are the spec's own choice (log 1). -/
def Obligations.StStoresPcRelative : Prop :=
  (∀ w : Word, w &&& 0xF000 = 0x3000 → decode w = .st (regField w 9) (w.extractLsb' 0 9)) ∧
  ∀ (sr : Reg) (off : BitVec 9) (s : State), ∃ t, exec (.st sr off) s = .next t ∧
    t.mem.word (pcRel9 s.pc off) = s.reg sr ∧ OnlyWord (pcRel9 s.pc off) s t

/-- 43_load_store R127: STI: the pointer is read first; then the store at it. The numbers and places of the bits are
the spec's own choice (log 1). The order of the accesses is D19 (log 22). -/
def Obligations.StiStoresIndirect : Prop :=
  (∀ w : Word, w &&& 0xF000 = 0xB000 → decode w = .sti (regField w 9) (w.extractLsb' 0 9)) ∧
  ∀ (sr : Reg) (off : BitVec 9) (s : State),
    ∃ p u t, s.memRead (pcRel9 s.pc off) = (p, u) ∧ exec (.sti sr off) s = .next t ∧
    t.mem.word p = s.reg sr ∧ MemSameBut p u t ∧ InputSame u t ∧
    (pcRel9 s.pc off ≠ params.kbsrAddr → p = s.mem.word (pcRel9 s.pc off) ∧ MemSameBut p s t ∧ InputSame s t) ∧
    RegsSameBut [] s t ∧ t.pc = s.pc ∧ t.cc = s.cc ∧ t.run = s.run ∧ OutputSame s t

/-- 43_load_store R128: STR: one store at base plus offset and no read. The numbers and places of the bits are the
spec's own choice (log 1). -/
def Obligations.StrStoresBasePlusOffset : Prop :=
  (∀ w : Word, w &&& 0xF000 = 0x7000 →
    decode w = .str (regField w 9) (regField w 6) (w.extractLsb' 0 6)) ∧
  ∀ (sr base : Reg) (off : BitVec 6) (s : State), ∃ t, exec (.str sr base off) s = .next t ∧
    t.mem.word (baseOff6 (s.reg base) off) = s.reg sr ∧ OnlyWord (baseOff6 (s.reg base) off) s t

/-- 43_load_store R129: what STR stored, LDR at the same place does not load back: it loads the Word at the address
that the stored Word names. The double read is kept by D27 (log 16). -/
def Obligations.StrThenLdrLoadsThroughTheStoredWord : Prop :=
  ∀ (sr dr base : Reg) (off : BitVec 6) (s : State),
    baseOff6 (s.reg base) off ≠ params.kbsrAddr → s.reg sr ≠ params.kbsrAddr →
    ∃ t u, exec (.str sr base off) s = .next t ∧ exec (.ldr dr base off) t = .next u ∧
      u.reg dr =
        if s.reg sr = baseOff6 (s.reg base) off then s.reg sr else s.mem.word (s.reg sr)

/-- 20_memory R50: a store into the instruction stream is seen by the very next fetch (43 R126, ST with offset 0). -/
def Obligations.StoredWordIsFetchedNext : Prop :=
  ∀ (sr : Reg) (s : State), s.run = .running → s.pc ≠ params.kbsrAddr → ∃ t, exec (.st sr 0) s = .next t ∧
    step t = exec (decode (s.reg sr)) (t.setPc (t.pc + 1))

/-! ## TRAP and its services -/

/-- 44_trap R142: GETC with a character, zero-extended, no echo; without one it waits. The numbers and places of the
bits are the spec's own choice (log 1). The wait without a character, and the fault it ends in, are D15 and the
model's form (log 5). -/
def Obligations.GetcTakesACharacter : Prop :=
  (∀ w : Word, w &&& 0xF0FF = 0xF020 → decode w = .trapGetc) ∧
  (∀ (s : State) (c : Byte) (rest : List Byte), s.input = c :: rest → ∃ t, exec .trapGetc s = .next t ∧
    t.reg 7 = s.pc ∧ (t.reg 0).toNat = c.toNat ∧ t.cc = (if c = 0 then .zero else .pos) ∧ t.input = rest ∧
    t.answers = s.answers ∧ t.polls = s.polls ∧ OutputSame s t ∧ RegsSameBut [0, 7] s t ∧ t.pc = s.pc ∧
    t.run = s.run ∧ MemSame s t) ∧
  ∀ s : State, s.input = [] → exec .trapGetc s = .fault (.awaitingInput s.output)

/-- 44_trap R143: OUT. The numbers and places of the bits are the spec's own choice (log 1). The flush count is the
model's (log 11). -/
def Obligations.OutWritesTheLowByte : Prop :=
  (∀ w : Word, w &&& 0xF0FF = 0xF021 → decode w = .trapOut) ∧
  ∀ s : State, ∃ t b, exec .trapOut s = .next t ∧ t.reg 7 = s.pc ∧ t.output = s.output ++ [b] ∧
    b.toNat = (s.reg 0).toNat % 256 ∧ t.flushed = t.output.length ∧ OnlyLinkAndOutput s t

/-- 44_trap R144: PUTS writes the low byte of each Word up to the first zero Word; over a memory with no zero Word
the walk never ends. The numbers and places of the bits are the spec's own choice (log 1). The direct reads and
their wrap are D12; the fault is the model's form (log 10). The flush count is the model's (log 11). -/
def Obligations.PutsWritesTheString : Prop :=
  (∀ w : Word, w &&& 0xF0FF = 0xF022 → decode w = .trapPuts) ∧
  (∀ (s : State) (k : Nat), k < 65536 → s.mem.word (s.reg 0 + BitVec.ofNat 16 k) = 0 →
    (∀ j, j < k → s.mem.word (s.reg 0 + BitVec.ofNat 16 j) ≠ 0) → ∃ t, exec .trapPuts s = .next t ∧
    t.reg 7 = s.pc ∧
    t.output = s.output ++ (List.range k).map (fun j => lowByte (s.mem.word (s.reg 0 + BitVec.ofNat 16 j))) ∧
    t.flushed = t.output.length ∧ OnlyLinkAndOutput s t) ∧
  ∀ s : State, (∀ a : Word, s.mem.word a ≠ 0) → exec .trapPuts s = .fault .endlessString

/-- 44_trap R145: IN: the prompt, the character, its echo; without a character it waits, the prompt written. The
numbers and places of the bits are the spec's own choice (log 1). The wait without a character, and the fault it
ends in, are D15 and the model's form (log 5). The echo's details are D26 (log 23), the prompt a free value (log 6).
The flush count is the model's (log 11). -/
def Obligations.InPromptsTakesAndEchoes : Prop :=
  (∀ w : Word, w &&& 0xF0FF = 0xF023 → decode w = .trapIn) ∧
  (∀ (s : State) (c : Byte) (rest : List Byte), s.input = c :: rest → ∃ t, exec .trapIn s = .next t ∧
    t.reg 7 = s.pc ∧ (t.reg 0).toNat = c.toNat ∧ t.cc = (if c = 0 then .zero else .pos) ∧ t.input = rest ∧
    t.answers = s.answers ∧ t.polls = s.polls ∧ t.output = s.output ++ params.inPrompt ++ [c] ∧
    t.flushed = t.output.length ∧ RegsSameBut [0, 7] s t ∧ t.pc = s.pc ∧ t.run = s.run ∧ MemSame s t) ∧
  ∀ s : State, s.input = [] → exec .trapIn s = .fault (.awaitingInput (s.output ++ params.inPrompt))

/-- 44_trap R146: PUTSP writes the low byte of each Word, then the high byte if it is not zero. The numbers and
places of the bits are the spec's own choice (log 1). The direct reads and their wrap are D12; the fault is the
model's form (log 10). The flush count is the model's (log 11). -/
def Obligations.PutspWritesThePackedString : Prop :=
  (∀ w : Word, w &&& 0xF0FF = 0xF024 → decode w = .trapPutsp) ∧
  (∀ (s : State) (k : Nat), k < 65536 → s.mem.word (s.reg 0 + BitVec.ofNat 16 k) = 0 →
    (∀ j, j < k → s.mem.word (s.reg 0 + BitVec.ofNat 16 j) ≠ 0) → ∃ t, exec .trapPutsp s = .next t ∧
    t.reg 7 = s.pc ∧
    t.output = s.output ++ (List.range k).flatMap (fun j =>
      lowByte (s.mem.word (s.reg 0 + BitVec.ofNat 16 j)) ::
        (if highByte (s.mem.word (s.reg 0 + BitVec.ofNat 16 j)) = 0 then []
          else [highByte (s.mem.word (s.reg 0 + BitVec.ofNat 16 j))])) ∧
    t.flushed = t.output.length ∧ OnlyLinkAndOutput s t) ∧
  ∀ s : State, (∀ a : Word, s.mem.word a ≠ 0) → exec .trapPutsp s = .fault .endlessString

/-- 44_trap R147: HALT: the notice, everything flushed, `run` HALTED. The numbers and places of the bits are the
spec's own choice (log 1). The notice is a free value (log 6). The flush count is the model's (log 11). -/
def Obligations.HaltEndsTheRun : Prop :=
  (∀ w : Word, w &&& 0xF0FF = 0xF025 → decode w = .trapHalt) ∧
  ∀ s : State, ∃ t, exec .trapHalt s = .next t ∧ t.run = .halted ∧ t.reg 7 = s.pc ∧
    t.output = s.output ++ params.haltNotice ∧ t.flushed = t.output.length ∧ RegsSameBut [7] s t ∧
    t.pc = s.pc ∧ t.cc = s.cc ∧ MemSame s t ∧ InputSame s t

/-- 44_trap R148: TRAP with an undefined vector: the link, then the fatal condition (this spec's policy, D13); under
the other permitted policy nothing after the link. The numbers and places of the bits are the spec's own choice (log
1). The value ABORTED(cause) is the spec's decision D14 (log 8). -/
def Obligations.UndefinedTrapAbortsAfterTheLink : Prop :=
  (∀ (w : Word) (s : State), w &&& 0xF000 = 0xF000 → w.toNat % 256 < 0x20 ∨ 0x25 < w.toNat % 256 →
    ∃ t, exec (decode w) s = .next t ∧ t.reg 7 = s.pc ∧ t.run = .aborted .undefinedTrap ∧ OnlyRunAnd [7] s t) ∧
  (∀ (v : BitVec 8) (s : State) (i : Instr),
    i ∈ [.trapUndef00 v, .trapUndef26 v, .trapUndef28 v, .trapUndef30 v, .trapUndef40 v, .trapUndef80 v] →
    ∃ t, exec i s = .next t ∧ t.reg 7 = s.pc ∧ t.run = .aborted .undefinedTrap ∧ OnlyRunAnd [7] s t) ∧
  ∀ s : State, undefinedTrap .noop s.link = .next s.link

/-! ## The unimplemented opcodes and the fatal condition -/

/-- 60_exceptions R171: the fatal condition writes `run` and nothing else, and the engine has no step after it. The
value ABORTED(cause) is the spec's decision D14 (log 8). -/
def Obligations.AbortChangesOnlyRun : Prop :=
  ∀ (s : State) (c : Cause), (s.raiseAbort c).run = .aborted c ∧ OnlyRunAnd [] s (s.raiseAbort c) ∧
    ∀ t, step (s.raiseAbort c) ≠ .next t

/-- 45_unimplemented R161: RTI, all 4096 Words. The numbers and places of the bits are the spec's own choice (log
1). The value ABORTED(cause) is the spec's decision D14 (log 8). -/
def Obligations.RtiAborts : Prop :=
  (∀ w : Word, w &&& 0xF000 = 0x8000 → decode w = .rti) ∧
  ∀ s : State, ∃ t, exec .rti s = .next t ∧ t.run = .aborted .rtiUnimplemented ∧ OnlyRunAnd [] s t

/-- 45_unimplemented R162: RES, all 4096 Words. The numbers and places of the bits are the spec's own choice (log
1). The value ABORTED(cause) is the spec's decision D14 (log 8). -/
def Obligations.ResAborts : Prop :=
  (∀ w : Word, w &&& 0xF000 = 0xD000 → decode w = .res) ∧
  ∀ s : State, ∃ t, exec .res s = .next t ∧ t.run = .aborted .resUnimplemented ∧ OnlyRunAnd [] s t

/-! ## Rules over all instructions -/

/-- Where an instruction stops and where it does not (40 R95; the fault names are the model's, log 5, log 10): no
instruction is refused, and the only stops are a wait for input and a string without an end. -/
def Obligations.OnlyWaitsAndEndlessStringsStop : Prop :=
  ∀ (i : Instr) (s : State),
    (∀ r, exec i s ≠ .refused r) ∧
    ∀ f, exec i s = .fault f ↔
      (i = .trapGetc ∧ s.input = [] ∧ f = .awaitingInput s.output) ∨
      (i = .trapIn ∧ s.input = [] ∧ f = .awaitingInput (s.output ++ params.inPrompt)) ∨
      ((i = .trapPuts ∨ i = .trapPutsp) ∧ (∀ a : Word, s.mem.word a ≠ 0) ∧ f = .endlessString)

/-- 10_state R25: how each instruction leaves `pc`, over the whole table. -/
def Obligations.EveryInstructionLeavesPcAsTheTableSays : Prop :=
  ∀ (i : Instr) (s t : State), exec i s = .next t → t.pc = nextPc s i

/-- 10_state R23: no instruction writes a general register but those the rule gives it. -/
def Obligations.OnlyNamedRegistersAreWritten : Prop :=
  ∀ (i : Instr) (s t : State), exec i s = .next t → RegsSameBut (regsWritten i) s t

/-- 10_state R29: the writers of `cc`, each on the register just written, and BR its only reader. -/
def Obligations.ConditionCodeWritersAndReader : Prop :=
  (∀ (i : Instr) (s t : State), exec i s = .next t →
    match flagReg i with
    | some r => t.cc = condOf (t.reg r)
    | none => t.cc = s.cc) ∧
  ∀ (i : Instr) (s t : State) (c : Cond), (∀ n z p off, i ≠ .br n z p off) → exec i s = .next t →
    exec i { s with cc := c } = .next (if (flagReg i).isSome then t else { t with cc := c })

/-- 10_state R31: the run state is written by HALT and by the fatal conditions only, each with its value. The value
ABORTED(cause) is the spec's decision D14 (log 8). -/
def Obligations.RunStateWriters : Prop :=
  ∀ (i : Instr) (s t : State), exec i s = .next t → t.run = (runWritten i).getD s.run

/-- 20_memory R47 and 95 Part 4: no byte changes outside the Word an instruction stores to, but the two keyboard
Words when one of its reads is at the status address; no input is used without such a read, GETC or IN. -/
def Obligations.MemoryWritersAndPolls : Prop :=
  ∀ (i : Instr) (s t : State), exec i s = .next t →
    (∀ b : Nat, (∀ a, storeOf s i = some a → b / 2 ≠ a.toNat) →
      (params.kbsrAddr ∈ readsOf s i → b / 2 ≠ params.kbsrAddr.toNat ∧ b / 2 ≠ params.kbdrAddr.toNat) →
      t.mem.byte b = s.mem.byte b) ∧
    (params.kbsrAddr ∉ readsOf s i → i ≠ .trapGetc → i ≠ .trapIn → InputSame s t)

/-- 10_state R35: the output stream only grows, and of the input stream a prefix is consumed. -/
def Obligations.StreamsOnlyMoveForward : Prop :=
  ∀ s t : State, step s = .next t → (∃ bs, t.output = s.output ++ bs) ∧ ∃ cs, s.input = cs ++ t.input

/-- 95 Part 4 (10): a step that neither polls nor takes a character is independent of the environment's input. -/
def Obligations.StepWithoutInputIsIndependentOfIt : Prop :=
  ∀ (s t : State) (input : List Byte) (answers : List Bool) (polls : Nat),
    step s = .next t → t.polls = s.polls → t.input = s.input →
    step { s with input := input, answers := answers, polls := polls } =
      .next { t with input := input, answers := answers, polls := polls }

/-- The invariant of the model: every step keeps memory canonical (log 3) and never shows more output than was written
(log 11). -/
def Obligations.EveryStepKeepsTheInvariant : Prop :=
  ∀ s t : State, s.Inv → step s = .next t → t.Inv

/-- The invariant holds at reset, and at launch over every canonical memory. -/
def Obligations.InvariantHoldsAtResetAndLaunch : Prop :=
  State.reset.Inv ∧ ∀ (x : Vector Word 8) (m : Memory) (input : List Byte) (answers : List Bool),
    m.wf → (State.launch x m input answers).Inv

/-! ## Reset and boot -/

/-- 70_reset_and_hazards R200: what reset leaves; the registers are any eight Words (`State.launch`), the model's own
choice being zero (log 2), of which nothing is said here. -/
def Obligations.ResetLeavesTheStatedValues : Prop :=
  ∀ (x : Vector Word 8) (input : List Byte) (answers : List Bool) (s : State),
    s = State.reset ∨ s = State.launch x [] input answers →
    s.pc = 0x3000 ∧ s.cc = .zero ∧ s.run = .running ∧ (∀ a : Word, s.mem.word a = 0) ∧ s.output = []

/-- 70_reset_and_hazards R201: the first cycle of every launch fetches at 0x3000, whatever the memory holds. -/
def Obligations.FirstFetchIsAtTheLoadAddress : Prop :=
  ∀ (x : Vector Word 8) (m : Memory) (input : List Byte) (answers : List Bool),
    step (State.launch x m input answers) =
      exec (decode (m.word 0x3000)) ((State.launch x m input answers).setPc 0x3001)

/-- 70_reset_and_hazards R207: an image's Words stand from its origin on, big-endian in the file, up to address
0xFFFF; every other Word is as before. -/
def Obligations.ImageLoadingCopiesTheWords : Prop :=
  ∀ (m : Memory) (origin : Word) (ws : List Word), ∃ m',
    m.loadImage ((origin :: ws).flatMap fun w => [highByte w, lowByte w]) = some m' ∧
    ∀ a : Word, m'.word a =
      if a.toNat < origin.toNat then m.word a else ws.getD (a.toNat - origin.toNat) (m.word a)
end

