-- ==== Sys2Proof/Laws/Decode.lean ====
section
/-! SUPPORT. The encoder and decoder, field by field: which bits each format sets, and the opcode a masked Word has. -/

namespace Sys2Proof
open Machine (params)

/-- The decoder reads back every opcode's number (30_encoding R61). -/
@[simp] theorem opcodeOf_opcodeMap (o : Opcode) : opcodeOf (params.opcodeMap o) = o := by
  cases o <;> decide

/-- Every 4-bit value is the number of the opcode it is read as (30_encoding R60: all sixteen are assigned). -/
@[simp] theorem opcodeMap_opcodeOf (c : BitVec 4) : params.opcodeMap (opcodeOf c) = c := by
  revert c
  decide

@[simp] theorem toFin_regBits (r : Reg) : (regBits r).toFin = r := rfl

/-- A bit of a Word that its mask keeps is that bit of the pattern (30_encoding R76). -/
theorem getLsbD_of_masked {w m p : Word} (h : w &&& m = p) {i : Nat} (hm : m.getLsbD i = true) :
    w.getLsbD i = p.getLsbD i := by
  subst h
  simp [hm]

/-- The opcode of a Word whose mask keeps bits 15:12 is the pattern's (30_encoding R76). -/
theorem opcode_of_masked {w m p : Word} (h : w &&& m = p) (hm : ∀ i, 12 ≤ i → i < 16 → m.getLsbD i = true) :
    w.extractLsb' 12 4 = p.extractLsb' 12 4 := by
  apply BitVec.eq_of_getLsbD_eq
  intro i hi
  simp only [BitVec.getLsbD_extractLsb', hi, decide_true, Bool.true_and]
  exact getLsbD_of_masked h (hm _ (by omega) (by omega))

/-- The bits of format PC9. -/
theorem getLsbD_encodePc9 (op : Opcode) (top : BitVec 3) (off : BitVec 9) (i : Nat) :
    (encodePc9 op top off).getLsbD i =
      if i < 9 then off.getLsbD i else if i < 12 then top.getLsbD (i - 9) else (params.opcodeMap op).getLsbD (i - 12) := by
  have h : (encodePc9 op top off).getLsbD i =
    (params.opcodeMap op ++ top ++ off : BitVec (4 + 3 + 9)).getLsbD i := rfl
  rw [h, BitVec.getLsbD_append, BitVec.getLsbD_append]
  split
  · rfl
  · by_cases h3 : i < 12
    · rw [if_pos h3, if_pos (by omega)]
    · rw [if_neg h3, if_neg (by omega), Nat.sub_sub]

/-- The bits of format OPR. -/
theorem getLsbD_encodeOpr (op : Opcode) (dr sr1 sr2 : Reg) (i : Nat) :
    (encodeOpr op dr sr1 sr2).getLsbD i =
      if i < 3 then (regBits sr2).getLsbD i else if i < 6 then false
      else if i < 9 then (regBits sr1).getLsbD (i - 6) else if i < 12 then (regBits dr).getLsbD (i - 9)
      else (params.opcodeMap op).getLsbD (i - 12) := by
  have h : (encodeOpr op dr sr1 sr2).getLsbD i =
    (params.opcodeMap op ++ regBits dr ++ regBits sr1 ++ 0b000#3 ++ regBits sr2 : BitVec (4 + 3 + 3 + 3 + 3)).getLsbD i := rfl
  simp only [h, BitVec.getLsbD_append, Nat.sub_sub, BitVec.getLsbD_zero]
  split_ifs <;> first | rfl | omega

/-- The bits of format OPI. -/
theorem getLsbD_encodeOpi (op : Opcode) (dr sr1 : Reg) (imm : BitVec 5) (i : Nat) :
    (encodeOpi op dr sr1 imm).getLsbD i =
      if i < 5 then imm.getLsbD i else if i < 6 then true
      else if i < 9 then (regBits sr1).getLsbD (i - 6) else if i < 12 then (regBits dr).getLsbD (i - 9)
      else (params.opcodeMap op).getLsbD (i - 12) := by
  have h : (encodeOpi op dr sr1 imm).getLsbD i =
    (params.opcodeMap op ++ regBits dr ++ regBits sr1 ++ 1#1 ++ imm : BitVec (4 + 3 + 3 + 1 + 5)).getLsbD i := rfl
  simp only [h, BitVec.getLsbD_append, Nat.sub_sub]
  split_ifs <;> first | rfl | omega | skip
  rw [show i - 5 = 0 by omega]
  rfl

/-- The bits of formats BASE6, BASE and NOT. -/
theorem getLsbD_encodeBase6 (op : Opcode) (top base : Reg) (low : BitVec 6) (i : Nat) :
    (encodeBase6 op top base low).getLsbD i =
      if i < 6 then low.getLsbD i else if i < 9 then (regBits base).getLsbD (i - 6)
      else if i < 12 then (regBits top).getLsbD (i - 9) else (params.opcodeMap op).getLsbD (i - 12) := by
  have h : (encodeBase6 op top base low).getLsbD i =
    (params.opcodeMap op ++ regBits top ++ regBits base ++ low : BitVec (4 + 3 + 3 + 6)).getLsbD i := rfl
  simp only [h, BitVec.getLsbD_append, Nat.sub_sub]
  split_ifs <;> first | rfl | omega

/-- The bits of format PC11. -/
theorem getLsbD_encodePc11 (off : BitVec 11) (i : Nat) :
    (encodePc11 off).getLsbD i =
      if i < 11 then off.getLsbD i else if i < 12 then true else (params.opcodeMap .jsr).getLsbD (i - 12) := by
  have h : (encodePc11 off).getLsbD i = (params.opcodeMap .jsr ++ 1#1 ++ off : BitVec (4 + 1 + 11)).getLsbD i := rfl
  simp only [h, BitVec.getLsbD_append, Nat.sub_sub]
  split_ifs <;> first | rfl | omega | skip
  rw [show i - 11 = 0 by omega]
  rfl

/-- The bits of format NONE. -/
theorem getLsbD_encodeNone (op : Opcode) (i : Nat) :
    (encodeNone op).getLsbD i = if i < 12 then false else (params.opcodeMap op).getLsbD (i - 12) := by
  have h : (encodeNone op).getLsbD i = (params.opcodeMap op ++ 0#12 : BitVec (4 + 12)).getLsbD i := rfl
  simp only [h, BitVec.getLsbD_append, BitVec.getLsbD_zero]

/-- The bits of format TRAP. -/
theorem getLsbD_encodeTrap (v : BitVec 8) (i : Nat) :
    (encodeTrap v).getLsbD i =
      if i < 8 then v.getLsbD i else if i < 12 then false else (params.opcodeMap .trap).getLsbD (i - 12) := by
  have h : (encodeTrap v).getLsbD i =
    (params.opcodeMap .trap ++ 0b0000#4 ++ v : BitVec (4 + 4 + 8)).getLsbD i := rfl
  simp only [h, BitVec.getLsbD_append, Nat.sub_sub, BitVec.getLsbD_zero]
  split_ifs <;> first | rfl | omega

end Sys2Proof
end

