-- ==== Sys2Proof/Laws/Flags.lean ====
section
/-! SUPPORT. The condition code: the value of each Word and the BR test in words (10_state R28, 42 R111). -/

namespace Sys2Proof.Machine

theorem condOf_eq_zero {v : Word} : condOf v = .zero ↔ v = 0 := by
  by_cases h : v = 0 <;> by_cases h' : v[15] = true <;> simp_all [condOf]

/-- NEG exactly when bit 15 is set. -/
theorem condOf_eq_neg {v : Word} : condOf v = .neg ↔ v[15] = true := by
  by_cases h : v = 0
  · subst h
    decide
  · by_cases h' : v[15] = true <;> simp_all [condOf]

/-- A Word below 0x8000 that is not zero is POS. -/
theorem condOf_eq_pos {v : Word} : condOf v = .pos ↔ v ≠ 0 ∧ v[15] = false := by
  by_cases h : v = 0 <;> by_cases h' : v[15] = true <;> simp_all [condOf]

/-- BR is taken when the bit of the current condition code is set (42 R111, "Equivalently"). -/
theorem branchTaken_iff (n z p : Bool) (cc : Cond) :
    branchTaken n z p cc = true ↔ (n = true ∧ cc = .neg) ∨ (z = true ∧ cc = .zero) ∨ (p = true ∧ cc = .pos) := by
  cases n <;> cases z <;> cases p <;> cases cc <;> decide

end Sys2Proof.Machine
end

