-- ==== Sys2Proof/Laws/Memory.lean ====
section
/-! SUPPORT. The laws of memory: a read after a write, in every memory (canonical or not); every operation keeps the
canonical form; canonical memories that read alike are equal; the walk of PUTS and PUTSP. -/

namespace Sys2Proof.Machine

/-! ### Cells -/

@[simp] theorem Memory.byte_nil (a : Nat) : Memory.byte [] a = 0 := rfl

theorem Memory.byte_cons (b : Nat) (v : Byte) (m : Memory) (a : Nat) :
    Memory.byte ((b, v) :: m) a = if b = a then v else Memory.byte m a := rfl

theorem Memory.byte_of_absent {m : Memory} {a : Nat} (h : ∀ c ∈ m, c.1 ≠ a) : m.byte a = 0 := by
  induction m with
  | nil => rfl
  | cons c m ih =>
    rw [Memory.byte_cons, if_neg (h c (by simp)), ih fun d hd => h d (by simp [hd])]

theorem Memory.erase_absent (m : Memory) (a : Nat) : ∀ c ∈ m.erase a, c.1 ≠ a := by
  simp [Memory.erase]

theorem Memory.byte_erase_other {m : Memory} {a b : Nat} (h : b ≠ a) : (m.erase a).byte b = m.byte b := by
  induction m with
  | nil => rfl
  | cons c m ih =>
    obtain ⟨k, u⟩ := c
    by_cases hk : k = a
    · simp_all [Memory.erase, Memory.byte_cons, Ne.symm h]
    · simp_all [Memory.erase, Memory.byte_cons]

theorem Memory.byte_insertCell_same {m : Memory} {a : Nat} {v : Byte} (h : ∀ c ∈ m, c.1 ≠ a) :
    (Memory.insertCell a v m).byte a = v := by
  induction m with
  | nil => simp [Memory.insertCell, Memory.byte_cons]
  | cons c m ih =>
    obtain ⟨k, u⟩ := c
    have hk : k ≠ a := h (k, u) (by simp)
    have := ih fun d hd => h d (by simp [hd])
    by_cases hl : a < k <;> simp [Memory.insertCell, Memory.byte_cons, hl, hk, this]

theorem Memory.byte_insertCell_other {m : Memory} {a b : Nat} {v : Byte} (h : b ≠ a) :
    (Memory.insertCell a v m).byte b = m.byte b := by
  induction m with
  | nil => simp [Memory.insertCell, Memory.byte_cons, Ne.symm h]
  | cons c m ih =>
    obtain ⟨k, u⟩ := c
    by_cases hl : a < k <;> simp [Memory.insertCell, Memory.byte_cons, hl, Ne.symm h, ih]

/-- A read of a cell after a write of a cell. -/
theorem Memory.byte_setByte (m : Memory) (a b : Nat) (v : Byte) :
    (m.setByte a v).byte b = if b = a then v else m.byte b := by
  unfold Memory.setByte
  by_cases hv : v = unlistedByte <;> by_cases hb : b = a
  · subst hb
    simp [hv, Memory.byte_of_absent (Memory.erase_absent m b), unlistedByte]
  · simp [hv, hb, Memory.byte_erase_other hb]
  · subst hb
    simp [hv, Memory.byte_insertCell_same (Memory.erase_absent m b)]
  · simp [hv, hb, Memory.byte_insertCell_other hb, Memory.byte_erase_other hb]

/-! ### Words -/

theorem getLsbD_joinBytes (h l : Byte) (i : Nat) :
    (joinBytes h l).getLsbD i = if i < 8 then l.getLsbD i else h.getLsbD (i - 8) := by
  have : (joinBytes h l).getLsbD i = (h ++ l : BitVec (8 + 8)).getLsbD i := rfl
  rw [this, BitVec.getLsbD_append]

/-- The two halves of a Word put together again. -/
@[simp] theorem joinBytes_high_low (v : Word) : joinBytes (highByte v) (lowByte v) = v := by
  apply BitVec.eq_of_getLsbD_eq
  intro i hi
  rw [getLsbD_joinBytes]
  by_cases h : i < 8
  · simp [h, lowByte]
  · simp only [h, if_false, highByte, BitVec.getLsbD_extractLsb', show i - 8 < 8 by omega, decide_true, Bool.true_and]
    rw [show 8 + (i - 8) = i by omega]

@[simp] theorem highByte_joinBytes (h l : Byte) : highByte (joinBytes h l) = h := by
  apply BitVec.eq_of_getLsbD_eq
  intro i hi
  simp [highByte, getLsbD_joinBytes, hi]

@[simp] theorem lowByte_joinBytes (h l : Byte) : lowByte (joinBytes h l) = l := by
  apply BitVec.eq_of_getLsbD_eq
  intro i hi
  simp [lowByte, getLsbD_joinBytes, hi]

/-- A read of a cell after a write of a Word: outside the Word nothing changes. -/
theorem Memory.byte_setWord_other {m : Memory} {a v : Word} {b : Nat} (h : b / 2 ≠ a.toNat) :
    (m.setWord a v).byte b = m.byte b := by
  have h1 : b ≠ 2 * a.toNat := by omega
  have h2 : b ≠ 2 * a.toNat + 1 := by omega
  simp [Memory.setWord, Memory.byte_setByte, h1, h2]

/-- A read of a Word after a write of a Word (10_state R33). -/
theorem Memory.word_setWord (m : Memory) (a b v : Word) :
    (m.setWord a v).word b = if b = a then v else m.word b := by
  by_cases h : b = a
  · subst h
    simp [Memory.word, Memory.setWord, Memory.byte_setByte]
  · have hn : b.toNat ≠ a.toNat := fun hh => h (BitVec.eq_of_toNat_eq hh)
    simp [Memory.word, h, Memory.byte_setWord_other (m := m) (a := a) (v := v) (b := 2 * b.toNat) (by omega),
      Memory.byte_setWord_other (m := m) (a := a) (v := v) (b := 2 * b.toNat + 1) (by omega)]

@[simp] theorem Memory.word_setWord_same (m : Memory) (a v : Word) : (m.setWord a v).word a = v := by
  simp [Memory.word_setWord]

theorem Memory.word_setWord_other {m : Memory} {a b v : Word} (h : b ≠ a) : (m.setWord a v).word b = m.word b := by
  simp [Memory.word_setWord, h]

/-- Memories whose cells read alike hold the same Words. -/
theorem Memory.word_congr {m m' : Memory} (h : ∀ b, m.byte b = m'.byte b) (a : Word) : m.word a = m'.word a := by
  simp [Memory.word, h]

@[simp] theorem Memory.word_nil (a : Word) : Memory.word [] a = 0 := by
  simp only [Memory.word, Memory.byte_nil]
  rfl

/-! ### The canonical form -/

theorem Memory.wf_nil : Memory.wf [] := by decide

theorem Memory.wf_erase {m : Memory} (h : m.wf) (a : Nat) : (m.erase a).wf :=
  ⟨h.1.filter _, fun c hc => h.2 c (List.mem_filter.1 hc).1⟩

theorem Memory.mem_insertCell {m : Memory} {a : Nat} {v : Byte} {c : Host.Cell} :
    c ∈ Memory.insertCell a v m ↔ c = (a, v) ∨ c ∈ m := by
  induction m with
  | nil => simp [Memory.insertCell]
  | cons d m ih =>
    obtain ⟨k, u⟩ := d
    by_cases hl : a < k
    · simp [Memory.insertCell, hl]
    · simp only [Memory.insertCell, hl, if_false, List.mem_cons, ih]
      tauto

theorem Memory.wf_insertCell {m : Memory} (h : m.wf) {a : Nat} {v : Byte} (ha : a < 2 * memWords)
    (hv : v ≠ unlistedByte) (habs : ∀ c ∈ m, c.1 ≠ a) : (Memory.insertCell a v m).wf := by
  refine ⟨?_, fun c hc => ?_⟩
  · obtain ⟨hp, -⟩ := h
    induction m with
    | nil => simp [Memory.insertCell]
    | cons d m ih =>
      obtain ⟨k, u⟩ := d
      have hk : k ≠ a := habs (k, u) (by simp)
      rw [List.pairwise_cons] at hp
      by_cases hl : a < k
      · simp only [Memory.insertCell, hl, if_true, List.pairwise_cons, List.mem_cons, forall_eq_or_imp, true_and]
        exact ⟨fun c hc => lt_trans hl (hp.1 c hc), hp⟩
      · simp only [Memory.insertCell, hl, if_false, List.pairwise_cons]
        refine ⟨fun c hc => ?_, ih (fun c hc => habs c (by simp [hc])) hp.2⟩
        rcases Memory.mem_insertCell.1 hc with rfl | hc
        · show k < a
          omega
        · exact hp.1 c hc
  · rcases Memory.mem_insertCell.1 hc with rfl | hc
    · exact ⟨ha, hv⟩
    · exact h.2 c hc

theorem Memory.wf_setByte {m : Memory} (h : m.wf) {a : Nat} (ha : a < 2 * memWords) (v : Byte) :
    (m.setByte a v).wf := by
  unfold Memory.setByte
  split
  · exact Memory.wf_erase h a
  · exact Memory.wf_insertCell (Memory.wf_erase h a) ha ‹_› (Memory.erase_absent m a)

/-- A write of a Word keeps the canonical form. -/
theorem Memory.wf_setWord {m : Memory} (h : m.wf) (a v : Word) : (m.setWord a v).wf := by
  have ha : a.toNat < 65536 := a.isLt
  have h0 : 2 * a.toNat < 2 * memWords := by unfold memWords; omega
  have h1 : 2 * a.toNat + 1 < 2 * memWords := by unfold memWords; omega
  exact Memory.wf_setByte (Memory.wf_setByte h h0 _) h1 _

/-- The loader keeps the canonical form. -/
theorem Memory.wf_loadWords {m : Memory} (h : m.wf) (a : Nat) (bs : List Byte) : (m.loadWords a bs).wf := by
  induction m, a, bs using Memory.loadWords.induct with
  | case1 m a hi lo rest ha ih =>
    rw [Memory.loadWords, if_pos ha]
    exact ih (Memory.wf_setWord h _ _)
  | case2 m a hi lo rest ha =>
    rw [Memory.loadWords, if_neg ha]
    exact h
  | case3 m a bs hbs =>
    rw [Memory.loadWords]
    · exact h
    · exact hbs

theorem Memory.wf_tail {c : Host.Cell} {m : Memory} (h : Memory.wf (c :: m)) : Memory.wf m :=
  ⟨(List.pairwise_cons.1 h.1).2, fun d hd => h.2 d (by simp [hd])⟩

theorem Memory.byte_below {c : Host.Cell} {m : Memory} (h : Memory.wf (c :: m)) {a : Nat} (ha : a ≤ c.1) :
    m.byte a = 0 :=
  Memory.byte_of_absent fun d hd => by
    have := (List.pairwise_cons.1 h.1).1 d hd
    omega

/-- Equal memories are equal data: two canonical memories whose cells read alike are the same list. -/
theorem Memory.ext_of_wf {m m' : Memory} (h : m.wf) (h' : m'.wf) (hb : ∀ a, m.byte a = m'.byte a) : m = m' := by
  induction m generalizing m' with
  | nil =>
    cases m' with
    | nil => rfl
    | cons d m' =>
      have := hb d.1
      rw [Memory.byte_nil, Memory.byte_cons, if_pos rfl] at this
      exact absurd this.symm (h'.2 d (by simp)).2
  | cons c m ih =>
    cases m' with
    | nil =>
      have := hb c.1
      rw [Memory.byte_nil, Memory.byte_cons, if_pos rfl] at this
      exact absurd this (h.2 c (by simp)).2
    | cons d m' =>
      obtain ⟨k, u⟩ := c
      obtain ⟨l, w⟩ := d
      have hu : u ≠ 0 := (h.2 (k, u) (by simp)).2
      have hw : w ≠ 0 := (h'.2 (l, w) (by simp)).2
      have hkl : k = l := by
        rcases lt_trichotomy k l with hl | he | hg
        · have := hb k
          rw [Memory.byte_cons, if_pos rfl, Memory.byte_cons, if_neg (by omega), Memory.byte_below h' (by simp; omega)] at this
          exact absurd this hu
        · exact he
        · have := hb l
          rw [Memory.byte_cons, if_neg (by omega), Memory.byte_below h (by simp; omega), Memory.byte_cons, if_pos rfl] at this
          exact absurd this.symm hw
      subst hkl
      have huw : u = w := by simpa [Memory.byte_cons] using hb k
      subst huw
      refine congrArg _ (ih (Memory.wf_tail h) (Memory.wf_tail h') fun a => ?_)
      by_cases ha : k = a
      · subst ha
        rw [Memory.byte_below h (by simp), Memory.byte_below h' (by simp)]
      · simpa [Memory.byte_cons, ha] using hb a

/-! ### The walk of PUTS and PUTSP (20_memory R44) -/

/-- The walk ends at the first zero Word, having collected the Words before it. -/
theorem Memory.stringFrom_eq_some {m : Memory} {n : Nat} {a : Word} {ws : List Word} :
    m.stringFrom n a = some ws ↔
      ∃ k < n, m.word (a + BitVec.ofNat 16 k) = 0 ∧ (∀ j < k, m.word (a + BitVec.ofNat 16 j) ≠ 0) ∧
        ws = (List.range k).map fun j => m.word (a + BitVec.ofNat 16 j) := by
  induction n generalizing a ws with
  | zero => simp [Memory.stringFrom]
  | succ n ih =>
    have hshift : ∀ j : Nat, a + 1 + BitVec.ofNat 16 j = a + BitVec.ofNat 16 (j + 1) := fun j => by
      rw [BitVec.add_assoc, Nat.add_comm j 1, BitVec.ofNat_add]
      rfl
    unfold Memory.stringFrom
    by_cases h0 : m.word a = 0
    · rw [if_pos h0]
      constructor
      · rintro ⟨⟩
        exact ⟨0, by omega, by simpa using h0, by simp, rfl⟩
      · rintro ⟨k, -, -, hne, rfl⟩
        cases k with
        | zero => rfl
        | succ k => exact absurd (by simpa using h0) (hne 0 (by omega))
    · rw [if_neg h0, Option.map_eq_some_iff]
      constructor
      · rintro ⟨us, hus, rfl⟩
        obtain ⟨k, hk, hz, hne, rfl⟩ := ih.1 hus
        refine ⟨k + 1, by omega, by rwa [← hshift], fun j hj => ?_, ?_⟩
        · cases j with
          | zero => simpa using h0
          | succ j =>
            rw [← hshift]
            exact hne j (by omega)
        · simp only [List.range_succ_eq_map, List.map_cons, List.map_map, Function.comp_def, hshift]
          simp
      · rintro ⟨k, hk, hz, hne, rfl⟩
        cases k with
        | zero => exact absurd (by simpa using hz) h0
        | succ k =>
          refine ⟨_, ih.2 ⟨k, by omega, by rwa [hshift], fun j hj => ?_, rfl⟩, ?_⟩
          · rw [hshift]
            exact hne (j + 1) (by omega)
          · simp only [List.range_succ_eq_map, List.map_cons, List.map_map, Function.comp_def, hshift]
            simp

/-- The walk over all of memory never ends exactly when no Word is zero. -/
theorem Memory.stringFrom_eq_none {m : Memory} {a : Word} :
    m.stringFrom memWords a = none ↔ ∀ b : Word, m.word b ≠ 0 := by
  constructor
  · intro h b hb
    have hex : ∃ k, m.word (a + BitVec.ofNat 16 k) = 0 :=
      ⟨(b - a).toNat, by rw [BitVec.ofNat_toNat, BitVec.setWidth_eq, BitVec.add_comm, BitVec.sub_add_cancel]; exact hb⟩
    classical
    have hlt : Nat.find hex < memWords :=
      lt_of_le_of_lt
        (Nat.find_min' hex (m := (b - a).toNat)
          (by rw [BitVec.ofNat_toNat, BitVec.setWidth_eq, BitVec.add_comm, BitVec.sub_add_cancel]; exact hb))
        (b - a).isLt
    have := (Memory.stringFrom_eq_some (m := m) (n := memWords) (a := a)).2
      ⟨Nat.find hex, hlt, Nat.find_spec hex, fun j hj => Nat.find_min hex hj, rfl⟩
    rw [h] at this
    exact absurd this (by simp)
  · intro h
    cases hs : m.stringFrom memWords a with
    | none => rfl
    | some ws =>
      obtain ⟨k, -, hz, -⟩ := Memory.stringFrom_eq_some.1 hs
      exact absurd hz (h _)

end Sys2Proof.Machine
end

