-- ==== Sys2Proof/Laws/State.lean ====
section
/-! SUPPORT. One lemma per field per named update of the state, and the reads of a register after each. -/

namespace Sys2Proof.Machine

/-! ### `setReg` -/

@[simp] theorem State.setReg_x (s : State) (i : Reg) (v : Word) : (s.setReg i v).x = s.x.set i v := rfl
@[simp] theorem State.setReg_pc (s : State) (i : Reg) (v : Word) : (s.setReg i v).pc = s.pc := rfl
@[simp] theorem State.setReg_cc (s : State) (i : Reg) (v : Word) : (s.setReg i v).cc = s.cc := rfl
@[simp] theorem State.setReg_run (s : State) (i : Reg) (v : Word) : (s.setReg i v).run = s.run := rfl
@[simp] theorem State.setReg_mem (s : State) (i : Reg) (v : Word) : (s.setReg i v).mem = s.mem := rfl
@[simp] theorem State.setReg_input (s : State) (i : Reg) (v : Word) : (s.setReg i v).input = s.input := rfl
@[simp] theorem State.setReg_answers (s : State) (i : Reg) (v : Word) : (s.setReg i v).answers = s.answers := rfl
@[simp] theorem State.setReg_polls (s : State) (i : Reg) (v : Word) : (s.setReg i v).polls = s.polls := rfl
@[simp] theorem State.setReg_output (s : State) (i : Reg) (v : Word) : (s.setReg i v).output = s.output := rfl
@[simp] theorem State.setReg_flushed (s : State) (i : Reg) (v : Word) : (s.setReg i v).flushed = s.flushed := rfl

/-! ### `setPc` -/

@[simp] theorem State.setPc_x (s : State) (v : Word) : (s.setPc v).x = s.x := rfl
@[simp] theorem State.setPc_pc (s : State) (v : Word) : (s.setPc v).pc = v := rfl
@[simp] theorem State.setPc_cc (s : State) (v : Word) : (s.setPc v).cc = s.cc := rfl
@[simp] theorem State.setPc_run (s : State) (v : Word) : (s.setPc v).run = s.run := rfl
@[simp] theorem State.setPc_mem (s : State) (v : Word) : (s.setPc v).mem = s.mem := rfl
@[simp] theorem State.setPc_input (s : State) (v : Word) : (s.setPc v).input = s.input := rfl
@[simp] theorem State.setPc_answers (s : State) (v : Word) : (s.setPc v).answers = s.answers := rfl
@[simp] theorem State.setPc_polls (s : State) (v : Word) : (s.setPc v).polls = s.polls := rfl
@[simp] theorem State.setPc_output (s : State) (v : Word) : (s.setPc v).output = s.output := rfl
@[simp] theorem State.setPc_flushed (s : State) (v : Word) : (s.setPc v).flushed = s.flushed := rfl
@[simp] theorem State.setPc_reg (s : State) (v : Word) (j : Reg) : (s.setPc v).reg j = s.reg j := rfl

/-! ### `setRun` -/

@[simp] theorem State.setRun_x (s : State) (r : RunState) : (s.setRun r).x = s.x := rfl
@[simp] theorem State.setRun_pc (s : State) (r : RunState) : (s.setRun r).pc = s.pc := rfl
@[simp] theorem State.setRun_cc (s : State) (r : RunState) : (s.setRun r).cc = s.cc := rfl
@[simp] theorem State.setRun_run (s : State) (r : RunState) : (s.setRun r).run = r := rfl
@[simp] theorem State.setRun_mem (s : State) (r : RunState) : (s.setRun r).mem = s.mem := rfl
@[simp] theorem State.setRun_input (s : State) (r : RunState) : (s.setRun r).input = s.input := rfl
@[simp] theorem State.setRun_answers (s : State) (r : RunState) : (s.setRun r).answers = s.answers := rfl
@[simp] theorem State.setRun_polls (s : State) (r : RunState) : (s.setRun r).polls = s.polls := rfl
@[simp] theorem State.setRun_output (s : State) (r : RunState) : (s.setRun r).output = s.output := rfl
@[simp] theorem State.setRun_flushed (s : State) (r : RunState) : (s.setRun r).flushed = s.flushed := rfl
@[simp] theorem State.setRun_reg (s : State) (r : RunState) (j : Reg) : (s.setRun r).reg j = s.reg j := rfl

/-! ### `setMem` -/

@[simp] theorem State.setMem_x (s : State) (m : Memory) : (s.setMem m).x = s.x := rfl
@[simp] theorem State.setMem_pc (s : State) (m : Memory) : (s.setMem m).pc = s.pc := rfl
@[simp] theorem State.setMem_cc (s : State) (m : Memory) : (s.setMem m).cc = s.cc := rfl
@[simp] theorem State.setMem_run (s : State) (m : Memory) : (s.setMem m).run = s.run := rfl
@[simp] theorem State.setMem_mem (s : State) (m : Memory) : (s.setMem m).mem = m := rfl
@[simp] theorem State.setMem_input (s : State) (m : Memory) : (s.setMem m).input = s.input := rfl
@[simp] theorem State.setMem_answers (s : State) (m : Memory) : (s.setMem m).answers = s.answers := rfl
@[simp] theorem State.setMem_polls (s : State) (m : Memory) : (s.setMem m).polls = s.polls := rfl
@[simp] theorem State.setMem_output (s : State) (m : Memory) : (s.setMem m).output = s.output := rfl
@[simp] theorem State.setMem_flushed (s : State) (m : Memory) : (s.setMem m).flushed = s.flushed := rfl
@[simp] theorem State.setMem_reg (s : State) (m : Memory) (j : Reg) : (s.setMem m).reg j = s.reg j := rfl

/-! ### `setInput` -/

@[simp] theorem State.setInput_x (s : State) (cs : List Byte) : (s.setInput cs).x = s.x := rfl
@[simp] theorem State.setInput_pc (s : State) (cs : List Byte) : (s.setInput cs).pc = s.pc := rfl
@[simp] theorem State.setInput_cc (s : State) (cs : List Byte) : (s.setInput cs).cc = s.cc := rfl
@[simp] theorem State.setInput_run (s : State) (cs : List Byte) : (s.setInput cs).run = s.run := rfl
@[simp] theorem State.setInput_mem (s : State) (cs : List Byte) : (s.setInput cs).mem = s.mem := rfl
@[simp] theorem State.setInput_input (s : State) (cs : List Byte) : (s.setInput cs).input = cs := rfl
@[simp] theorem State.setInput_answers (s : State) (cs : List Byte) : (s.setInput cs).answers = s.answers := rfl
@[simp] theorem State.setInput_polls (s : State) (cs : List Byte) : (s.setInput cs).polls = s.polls := rfl
@[simp] theorem State.setInput_output (s : State) (cs : List Byte) : (s.setInput cs).output = s.output := rfl
@[simp] theorem State.setInput_flushed (s : State) (cs : List Byte) : (s.setInput cs).flushed = s.flushed := rfl
@[simp] theorem State.setInput_reg (s : State) (cs : List Byte) (j : Reg) : (s.setInput cs).reg j = s.reg j := rfl

/-! ### `setcc` -/

@[simp] theorem State.setcc_x (s : State) (v : Word) : (s.setcc v).x = s.x := rfl
@[simp] theorem State.setcc_pc (s : State) (v : Word) : (s.setcc v).pc = s.pc := rfl
@[simp] theorem State.setcc_cc (s : State) (v : Word) : (s.setcc v).cc = condOf v := rfl
@[simp] theorem State.setcc_run (s : State) (v : Word) : (s.setcc v).run = s.run := rfl
@[simp] theorem State.setcc_mem (s : State) (v : Word) : (s.setcc v).mem = s.mem := rfl
@[simp] theorem State.setcc_input (s : State) (v : Word) : (s.setcc v).input = s.input := rfl
@[simp] theorem State.setcc_answers (s : State) (v : Word) : (s.setcc v).answers = s.answers := rfl
@[simp] theorem State.setcc_polls (s : State) (v : Word) : (s.setcc v).polls = s.polls := rfl
@[simp] theorem State.setcc_output (s : State) (v : Word) : (s.setcc v).output = s.output := rfl
@[simp] theorem State.setcc_flushed (s : State) (v : Word) : (s.setcc v).flushed = s.flushed := rfl
@[simp] theorem State.setcc_reg (s : State) (v : Word) (j : Reg) : (s.setcc v).reg j = s.reg j := rfl

/-! ### `writeDest` -/

@[simp] theorem State.writeDest_x (s : State) (i : Reg) (v : Word) : (s.writeDest i v).x = s.x.set i v := rfl
@[simp] theorem State.writeDest_pc (s : State) (i : Reg) (v : Word) : (s.writeDest i v).pc = s.pc := rfl
@[simp] theorem State.writeDest_cc (s : State) (i : Reg) (v : Word) : (s.writeDest i v).cc = condOf v := rfl
@[simp] theorem State.writeDest_run (s : State) (i : Reg) (v : Word) : (s.writeDest i v).run = s.run := rfl
@[simp] theorem State.writeDest_mem (s : State) (i : Reg) (v : Word) : (s.writeDest i v).mem = s.mem := rfl
@[simp] theorem State.writeDest_input (s : State) (i : Reg) (v : Word) : (s.writeDest i v).input = s.input := rfl
@[simp] theorem State.writeDest_answers (s : State) (i : Reg) (v : Word) : (s.writeDest i v).answers = s.answers := rfl
@[simp] theorem State.writeDest_polls (s : State) (i : Reg) (v : Word) : (s.writeDest i v).polls = s.polls := rfl
@[simp] theorem State.writeDest_output (s : State) (i : Reg) (v : Word) : (s.writeDest i v).output = s.output := rfl
@[simp] theorem State.writeDest_flushed (s : State) (i : Reg) (v : Word) : (s.writeDest i v).flushed = s.flushed := rfl

/-! ### `memWrite` -/

@[simp] theorem State.memWrite_x (s : State) (a v : Word) : (s.memWrite a v).x = s.x := rfl
@[simp] theorem State.memWrite_pc (s : State) (a v : Word) : (s.memWrite a v).pc = s.pc := rfl
@[simp] theorem State.memWrite_cc (s : State) (a v : Word) : (s.memWrite a v).cc = s.cc := rfl
@[simp] theorem State.memWrite_run (s : State) (a v : Word) : (s.memWrite a v).run = s.run := rfl
@[simp] theorem State.memWrite_mem (s : State) (a v : Word) : (s.memWrite a v).mem = s.mem.setWord a v := rfl
@[simp] theorem State.memWrite_input (s : State) (a v : Word) : (s.memWrite a v).input = s.input := rfl
@[simp] theorem State.memWrite_answers (s : State) (a v : Word) : (s.memWrite a v).answers = s.answers := rfl
@[simp] theorem State.memWrite_polls (s : State) (a v : Word) : (s.memWrite a v).polls = s.polls := rfl
@[simp] theorem State.memWrite_output (s : State) (a v : Word) : (s.memWrite a v).output = s.output := rfl
@[simp] theorem State.memWrite_flushed (s : State) (a v : Word) : (s.memWrite a v).flushed = s.flushed := rfl
@[simp] theorem State.memWrite_reg (s : State) (a v : Word) (j : Reg) : (s.memWrite a v).reg j = s.reg j := rfl

/-! ### `kbdPolled` -/

@[simp] theorem State.kbdPolled_x (s : State) : (s.kbdPolled).x = s.x := rfl
@[simp] theorem State.kbdPolled_pc (s : State) : (s.kbdPolled).pc = s.pc := rfl
@[simp] theorem State.kbdPolled_cc (s : State) : (s.kbdPolled).cc = s.cc := rfl
@[simp] theorem State.kbdPolled_run (s : State) : (s.kbdPolled).run = s.run := rfl
@[simp] theorem State.kbdPolled_mem (s : State) : (s.kbdPolled).mem = s.mem := rfl
@[simp] theorem State.kbdPolled_input (s : State) : (s.kbdPolled).input = s.input := rfl
@[simp] theorem State.kbdPolled_answers (s : State) : (s.kbdPolled).answers = s.answers.tail := rfl
@[simp] theorem State.kbdPolled_polls (s : State) : (s.kbdPolled).polls = s.polls + 1 := rfl
@[simp] theorem State.kbdPolled_output (s : State) : (s.kbdPolled).output = s.output := rfl
@[simp] theorem State.kbdPolled_flushed (s : State) : (s.kbdPolled).flushed = s.flushed := rfl
@[simp] theorem State.kbdPolled_reg (s : State) (j : Reg) : (s.kbdPolled).reg j = s.reg j := rfl

/-! ### `conPut` -/

@[simp] theorem State.conPut_x (s : State) (bs : List Byte) : (s.conPut bs).x = s.x := rfl
@[simp] theorem State.conPut_pc (s : State) (bs : List Byte) : (s.conPut bs).pc = s.pc := rfl
@[simp] theorem State.conPut_cc (s : State) (bs : List Byte) : (s.conPut bs).cc = s.cc := rfl
@[simp] theorem State.conPut_run (s : State) (bs : List Byte) : (s.conPut bs).run = s.run := rfl
@[simp] theorem State.conPut_mem (s : State) (bs : List Byte) : (s.conPut bs).mem = s.mem := rfl
@[simp] theorem State.conPut_input (s : State) (bs : List Byte) : (s.conPut bs).input = s.input := rfl
@[simp] theorem State.conPut_answers (s : State) (bs : List Byte) : (s.conPut bs).answers = s.answers := rfl
@[simp] theorem State.conPut_polls (s : State) (bs : List Byte) : (s.conPut bs).polls = s.polls := rfl
@[simp] theorem State.conPut_output (s : State) (bs : List Byte) : (s.conPut bs).output = s.output ++ bs := rfl
@[simp] theorem State.conPut_flushed (s : State) (bs : List Byte) : (s.conPut bs).flushed = s.flushed := rfl
@[simp] theorem State.conPut_reg (s : State) (bs : List Byte) (j : Reg) : (s.conPut bs).reg j = s.reg j := rfl

/-! ### `conFlush` -/

@[simp] theorem State.conFlush_x (s : State) : (s.conFlush).x = s.x := rfl
@[simp] theorem State.conFlush_pc (s : State) : (s.conFlush).pc = s.pc := rfl
@[simp] theorem State.conFlush_cc (s : State) : (s.conFlush).cc = s.cc := rfl
@[simp] theorem State.conFlush_run (s : State) : (s.conFlush).run = s.run := rfl
@[simp] theorem State.conFlush_mem (s : State) : (s.conFlush).mem = s.mem := rfl
@[simp] theorem State.conFlush_input (s : State) : (s.conFlush).input = s.input := rfl
@[simp] theorem State.conFlush_answers (s : State) : (s.conFlush).answers = s.answers := rfl
@[simp] theorem State.conFlush_polls (s : State) : (s.conFlush).polls = s.polls := rfl
@[simp] theorem State.conFlush_output (s : State) : (s.conFlush).output = s.output := rfl
@[simp] theorem State.conFlush_flushed (s : State) : (s.conFlush).flushed = s.output.length := rfl
@[simp] theorem State.conFlush_reg (s : State) (j : Reg) : (s.conFlush).reg j = s.reg j := rfl

/-! ### `link` -/

@[simp] theorem State.link_x (s : State) : (s.link).x = s.x.set 7 s.pc := rfl
@[simp] theorem State.link_pc (s : State) : (s.link).pc = s.pc := rfl
@[simp] theorem State.link_cc (s : State) : (s.link).cc = s.cc := rfl
@[simp] theorem State.link_run (s : State) : (s.link).run = s.run := rfl
@[simp] theorem State.link_mem (s : State) : (s.link).mem = s.mem := rfl
@[simp] theorem State.link_input (s : State) : (s.link).input = s.input := rfl
@[simp] theorem State.link_answers (s : State) : (s.link).answers = s.answers := rfl
@[simp] theorem State.link_polls (s : State) : (s.link).polls = s.polls := rfl
@[simp] theorem State.link_output (s : State) : (s.link).output = s.output := rfl
@[simp] theorem State.link_flushed (s : State) : (s.link).flushed = s.flushed := rfl

/-! ### `raiseAbort` -/

@[simp] theorem State.raiseAbort_x (s : State) (c : Cause) : (s.raiseAbort c).x = s.x := rfl
@[simp] theorem State.raiseAbort_pc (s : State) (c : Cause) : (s.raiseAbort c).pc = s.pc := rfl
@[simp] theorem State.raiseAbort_cc (s : State) (c : Cause) : (s.raiseAbort c).cc = s.cc := rfl
@[simp] theorem State.raiseAbort_run (s : State) (c : Cause) : (s.raiseAbort c).run = .aborted c := rfl
@[simp] theorem State.raiseAbort_mem (s : State) (c : Cause) : (s.raiseAbort c).mem = s.mem := rfl
@[simp] theorem State.raiseAbort_input (s : State) (c : Cause) : (s.raiseAbort c).input = s.input := rfl
@[simp] theorem State.raiseAbort_answers (s : State) (c : Cause) : (s.raiseAbort c).answers = s.answers := rfl
@[simp] theorem State.raiseAbort_polls (s : State) (c : Cause) : (s.raiseAbort c).polls = s.polls := rfl
@[simp] theorem State.raiseAbort_output (s : State) (c : Cause) : (s.raiseAbort c).output = s.output := rfl
@[simp] theorem State.raiseAbort_flushed (s : State) (c : Cause) : (s.raiseAbort c).flushed = s.flushed := rfl
@[simp] theorem State.raiseAbort_reg (s : State) (c : Cause) (j : Reg) : (s.raiseAbort c).reg j = s.reg j := rfl
/-! ### Registers after the updates that write one (10_state R21, R22) -/

@[simp] theorem State.setReg_reg (s : State) (i j : Reg) (v : Word) :
    (s.setReg i v).reg j = if i = j then v else s.reg j := by
  simp only [State.reg, State.setReg, Fin.getElem_fin, Vector.getElem_set, Fin.val_inj]

@[simp] theorem State.writeDest_reg (s : State) (i j : Reg) (v : Word) :
    (s.writeDest i v).reg j = if i = j then v else s.reg j := by
  simp [State.writeDest]

@[simp] theorem State.link_reg (s : State) (j : Reg) : s.link.reg j = if 7 = j then s.pc else s.reg j := by
  simp [State.link]

/-- Two states with equal fields are equal. -/
theorem State.ext_fields {s t : State} (hx : ∀ r : Reg, s.reg r = t.reg r) (hpc : s.pc = t.pc) (hcc : s.cc = t.cc)
    (hrun : s.run = t.run) (hmem : s.mem = t.mem) (hin : s.input = t.input) (ha : s.answers = t.answers)
    (hp : s.polls = t.polls) (ho : s.output = t.output) (hf : s.flushed = t.flushed) : s = t := by
  have hxv : s.x = t.x := Vector.ext fun i hi => hx ⟨i, hi⟩
  cases s
  cases t
  simp_all

end Sys2Proof.Machine
end

