-- ==== Sys2Proof/Laws/Ops.lean ====
section
/-! SUPPORT. One specification per shared operation: the keyboard interception, the memory interface, the fetch, and
the common ends of the instruction families. Later proofs cite these and unfold nothing. -/

namespace Sys2Proof.Machine

/-! ### The keyboard -/

/-- The two reserved addresses differ (20_memory R42). -/
theorem kbsrAddr_ne_kbdrAddr : params.kbsrAddr ≠ params.kbdrAddr := by decide

/-- The one law of 00_scope R10: an answer "available" means that a character is there. -/
theorem State.input_of_kbdAvail {s : State} (h : s.kbdAvail = true) : ∃ c rest, s.input = c :: rest := by
  cases hi : s.input with
  | nil => simp [State.kbdAvail, hi] at h
  | cons c rest => exact ⟨c, rest, rfl⟩

/-- The interception, both cases (20_memory R42). -/
theorem State.kbdIntercept_cases (s : State) :
    (s.kbdAvail = true ∧ ∃ c rest, s.input = c :: rest ∧
      s.kbdIntercept = (s.kbdPolled.setInput rest).setMem
        ((s.mem.setWord params.kbsrAddr 0x8000).setWord params.kbdrAddr (zext8 c))) ∨
    (s.kbdAvail = false ∧ s.kbdIntercept = s.kbdPolled.setMem (s.mem.setWord params.kbsrAddr 0x0000)) := by
  cases h : s.kbdAvail with
  | false => exact .inr ⟨rfl, by simp only [State.kbdIntercept, h]; rfl⟩
  | true =>
    obtain ⟨c, rest, hi⟩ := State.input_of_kbdAvail h
    refine .inl ⟨rfl, c, rest, hi, ?_⟩
    have ht : s.kbdPolled.kbdTake = some (c, s.kbdPolled.setInput rest) := by
      simp [State.kbdTake, hi]
    simp only [State.kbdIntercept, h, ht]
    rfl

/-- What the interception never touches. -/
theorem State.kbdIntercept_frame (s : State) :
    s.kbdIntercept.x = s.x ∧ s.kbdIntercept.pc = s.pc ∧ s.kbdIntercept.cc = s.cc ∧ s.kbdIntercept.run = s.run ∧
      s.kbdIntercept.output = s.output ∧ s.kbdIntercept.flushed = s.flushed ∧
      s.kbdIntercept.answers = s.answers.tail ∧ s.kbdIntercept.polls = s.polls + 1 := by
  rcases s.kbdIntercept_cases with ⟨-, c, rest, -, h⟩ | ⟨-, h⟩ <;> simp [h]

/-- Outside the two keyboard Words the interception leaves every byte alone. -/
theorem State.kbdIntercept_mem (s : State) : MemSameButKeyboard s s.kbdIntercept := by
  intro b h1 h2
  rcases s.kbdIntercept_cases with ⟨-, c, rest, -, h⟩ | ⟨-, h⟩
  · rw [h, State.setMem_mem, Memory.byte_setWord_other h2, Memory.byte_setWord_other h1]
  · rw [h, State.setMem_mem, Memory.byte_setWord_other h1]

theorem State.kbdIntercept_wf {s : State} (h : s.mem.wf) : s.kbdIntercept.mem.wf := by
  rcases s.kbdIntercept_cases with ⟨-, c, rest, -, he⟩ | ⟨-, he⟩ <;> rw [he, State.setMem_mem]
  · exact Memory.wf_setWord (Memory.wf_setWord h _ _) _ _
  · exact Memory.wf_setWord h _ _

/-- `KbdTake()`: it answers exactly when a character is left. -/
theorem State.kbdTake_cases (s : State) :
    (s.input = [] ∧ s.kbdTake = none) ∨ ∃ c rest, s.input = c :: rest ∧ s.kbdTake = some (c, s.setInput rest) := by
  cases h : s.input with
  | nil => exact .inl ⟨rfl, by simp [State.kbdTake, h]⟩
  | cons c rest => exact .inr ⟨c, rest, rfl, by simp [State.kbdTake, h]⟩

/-! ### The memory interface -/

/-- A read anywhere but at the status address is plain (20_memory R41). -/
theorem State.memRead_plain {s : State} {a : Word} (h : a ≠ params.kbsrAddr) : s.memRead a = (s.mem.word a, s) := by
  simp [State.memRead, h]

/-- A read of the status address is intercepted first (20_memory R41). -/
theorem State.memRead_kbsr (s : State) :
    s.memRead params.kbsrAddr = (s.kbdIntercept.mem.word params.kbsrAddr, s.kbdIntercept) := by
  simp [State.memRead]

/-- A read is plain or intercepted. -/
theorem State.memRead_cases (s : State) (a : Word) :
    (a ≠ params.kbsrAddr ∧ (s.memRead a).2 = s) ∨ (a = params.kbsrAddr ∧ (s.memRead a).2 = s.kbdIntercept) := by
  by_cases h : a = params.kbsrAddr
  · exact .inr ⟨h, by simp [State.memRead, h]⟩
  · exact .inl ⟨h, by simp [State.memRead, h]⟩

/-- The value of a read is the Word stored after the interception (20_memory R41). -/
theorem State.memRead_value (s : State) (a : Word) : (s.memRead a).1 = (s.memRead a).2.mem.word a := rfl

@[simp] theorem State.memRead_x (s : State) (a : Word) : (s.memRead a).2.x = s.x := by
  rcases s.memRead_cases a with ⟨-, h⟩ | ⟨-, h⟩ <;> simp [h, s.kbdIntercept_frame]

@[simp] theorem State.memRead_reg (s : State) (a : Word) (r : Reg) : (s.memRead a).2.reg r = s.reg r := by
  simp [State.reg]

@[simp] theorem State.memRead_pc (s : State) (a : Word) : (s.memRead a).2.pc = s.pc := by
  rcases s.memRead_cases a with ⟨-, h⟩ | ⟨-, h⟩ <;> simp [h, s.kbdIntercept_frame]

@[simp] theorem State.memRead_cc (s : State) (a : Word) : (s.memRead a).2.cc = s.cc := by
  rcases s.memRead_cases a with ⟨-, h⟩ | ⟨-, h⟩ <;> simp [h, s.kbdIntercept_frame]

@[simp] theorem State.memRead_run (s : State) (a : Word) : (s.memRead a).2.run = s.run := by
  rcases s.memRead_cases a with ⟨-, h⟩ | ⟨-, h⟩ <;> simp [h, s.kbdIntercept_frame]

@[simp] theorem State.memRead_output (s : State) (a : Word) : (s.memRead a).2.output = s.output := by
  rcases s.memRead_cases a with ⟨-, h⟩ | ⟨-, h⟩ <;> simp [h, s.kbdIntercept_frame]

@[simp] theorem State.memRead_flushed (s : State) (a : Word) : (s.memRead a).2.flushed = s.flushed := by
  rcases s.memRead_cases a with ⟨-, h⟩ | ⟨-, h⟩ <;> simp [h, s.kbdIntercept_frame]

/-- Outside the two keyboard Words a read leaves every byte alone. -/
theorem State.memRead_mem (s : State) (a : Word) : MemSameButKeyboard s (s.memRead a).2 := by
  rcases s.memRead_cases a with ⟨-, h⟩ | ⟨-, h⟩ <;> rw [h]
  · exact fun _ _ _ => rfl
  · exact s.kbdIntercept_mem

theorem State.memRead_wf {s : State} (h : s.mem.wf) (a : Word) : (s.memRead a).2.mem.wf := by
  rcases s.memRead_cases a with ⟨-, he⟩ | ⟨-, he⟩ <;> rw [he]
  · exact h
  · exact State.kbdIntercept_wf h

theorem State.memWrite_wf {s : State} (h : s.mem.wf) (a v : Word) : (s.memWrite a v).mem.wf :=
  Memory.wf_setWord h a v

/-- A store changes no byte outside its Word (20_memory R43). -/
theorem State.memWrite_memSameBut (s : State) (a v : Word) : MemSameBut a s (s.memWrite a v) :=
  fun _ h => Memory.byte_setWord_other h

/-! ### The fetch -/

/-- The fetched Word is the one an intercepted read at `pc` gives (40 R90). -/
theorem State.fetch_word (s : State) : s.fetch.1 = (s.memRead s.pc).1 := rfl

/-- The fetch leaves the state of that read with `pc` plus one (40 R90). -/
theorem State.fetch_state (s : State) : s.fetch.2 = (s.memRead s.pc).2.setPc (s.pc + 1) := by
  simp [State.fetch]

/-- A fetch anywhere but at the status address: the stored Word, and nothing but `pc` changes. -/
theorem State.fetch_plain {s : State} (h : s.pc ≠ params.kbsrAddr) : s.fetch = (s.mem.word s.pc, s.setPc (s.pc + 1)) := by
  simp [State.fetch, State.memRead_plain h]

/-- The engine steps exactly while it runs (40 R93). -/
theorem stopOf_eq_none {r : RunState} : stopOf r = none ↔ r = .running := by
  cases r <;> simp [stopOf]

/-! ### The common ends of the families -/

theorem operate_eq (dr : Reg) (r : Word) (s : State) : operate dr r s = .next (s.writeDest dr r) := rfl

theorem loadWord_eq (dr : Reg) (a : Word) (s : State) :
    loadWord dr a s = .next ((s.memRead a).2.writeDest dr (s.memRead a).1) := rfl

theorem loadIndirect_eq (dr : Reg) (a : Word) (s : State) :
    loadIndirect dr a s = loadWord dr (s.memRead a).1 (s.memRead a).2 := rfl

/-- GETC and IN: a character taken, or the wait. -/
theorem takeChar_cases (echo : Byte → State → State) (s : State) :
    (s.input = [] ∧ takeChar echo s = .fault (.awaitingInput s.output)) ∨
    ∃ c rest, s.input = c :: rest ∧
      takeChar echo s = .next ((echo c (s.setInput rest)).writeDest 0 (zext8 c)) := by
  rcases s.kbdTake_cases with ⟨h, ht⟩ | ⟨c, rest, h, ht⟩
  · exact .inl ⟨h, by simp [takeChar, ht]⟩
  · exact .inr ⟨c, rest, h, by simp [takeChar, ht]⟩

/-- PUTS and PUTSP: the string written and flushed, or the walk that never ends. -/
theorem putString_cases (bytes : Word → List Byte) (s : State) :
    ((∀ a : Word, s.mem.word a ≠ 0) ∧ putString bytes s = .fault .endlessString) ∨
    ∃ ws, s.mem.stringFrom memWords (s.reg 0) = some ws ∧
      putString bytes s = .next (s.conPut (ws.flatMap bytes)).conFlush := by
  cases h : s.mem.stringFrom memWords (s.reg 0) with
  | none => exact .inl ⟨Memory.stringFrom_eq_none.1 h, by simp [putString, h]⟩
  | some ws => exact .inr ⟨ws, rfl, by simp [putString, h]⟩

/-- The undefined vectors under this spec's policy (D13). -/
theorem undefinedTrap_policy (s : State) :
    undefinedTrap params.undefTrapPolicy s = .next (s.raiseAbort .undefinedTrap) := rfl

/-! ### Runs -/

/-- A property that holds at the start and that every step keeps holds all along a run. -/
theorem Reaches.keeps {P : State → Prop} (hstep : ∀ s t, P s → step s = .next t → P t) {s t : State} (h : Reaches s t)
    (hs : P s) : P t := by
  induction h with
  | refl => exact hs
  | tail _ hu ih => exact hstep _ _ ih hu

end Sys2Proof.Machine
end

