-- ==== Sys2Proof/Laws/PerInstr.lean ====
section
/-! SUPPORT. A law of every instruction as syntax, one lemma per constructor: the Word of a well-formed instruction
carries the fixed bits of its row of the decode table (30_encoding R76). -/

namespace Sys2Proof.Laws.RowBits

/-- The Word of the instruction belongs to the instruction's row. -/
def Statement (i : Instr) : Prop := i.wellFormed = true → encode i &&& (rowOf i).mask = (rowOf i).pattern

/-- Two Words that agree on their sixteen bits are equal. -/
theorem word_eq {v w : Word} (h : ∀ i < 16, v.getLsbD i = w.getLsbD i) : v = w :=
  BitVec.eq_of_getLsbD_eq fun i hi => h i hi

/-- Format PC9 under the opcode mask. -/
theorem pc9 (op : Opcode) (top : BitVec 3) (off : BitVec 9) : encodePc9 op top off &&& 0xF000 = encodeNone op := by
  refine word_eq fun i hi => ?_
  rw [BitVec.getLsbD_and, getLsbD_encodePc9, getLsbD_encodeNone]
  interval_cases i <;> simp

/-- Format OPR under the opcode and mode mask. -/
theorem opr (op : Opcode) (dr sr1 sr2 : Reg) : encodeOpr op dr sr1 sr2 &&& 0xF020 = encodeNone op := by
  refine word_eq fun i hi => ?_
  rw [BitVec.getLsbD_and, getLsbD_encodeOpr, getLsbD_encodeNone]
  interval_cases i <;> simp

/-- Format OPI under the opcode and mode mask. -/
theorem opi (op : Opcode) (dr sr1 : Reg) (imm : BitVec 5) :
    encodeOpi op dr sr1 imm &&& 0xF020 = encodeNone op ||| 0x0020 := by
  refine word_eq fun i hi => ?_
  rw [BitVec.getLsbD_and, getLsbD_encodeOpi, BitVec.getLsbD_or, getLsbD_encodeNone]
  interval_cases i <;> simp

/-- Formats BASE6, BASE and NOT under the opcode mask. -/
theorem base6 (op : Opcode) (top base : Reg) (low : BitVec 6) :
    encodeBase6 op top base low &&& 0xF000 = encodeNone op := by
  refine word_eq fun i hi => ?_
  rw [BitVec.getLsbD_and, getLsbD_encodeBase6, getLsbD_encodeNone]
  interval_cases i <;> simp

theorem br (n z p : Bool) (off : BitVec 9) : Statement (.br n z p off) := fun _ => pc9 ..
theorem add (dr sr1 sr2 : Reg) : Statement (.add dr sr1 sr2) := fun _ => opr ..
theorem addi (dr sr1 : Reg) (imm : BitVec 5) : Statement (.addi dr sr1 imm) := fun _ => opi ..
theorem ld (dr : Reg) (off : BitVec 9) : Statement (.ld dr off) := fun _ => pc9 ..
theorem st (sr : Reg) (off : BitVec 9) : Statement (.st sr off) := fun _ => pc9 ..
theorem and (dr sr1 sr2 : Reg) : Statement (.and dr sr1 sr2) := fun _ => opr ..
theorem andi (dr sr1 : Reg) (imm : BitVec 5) : Statement (.andi dr sr1 imm) := fun _ => opi ..
theorem ldr (dr base : Reg) (off : BitVec 6) : Statement (.ldr dr base off) := fun _ => base6 ..
theorem str (sr base : Reg) (off : BitVec 6) : Statement (.str sr base off) := fun _ => base6 ..
theorem rti : Statement .rti := fun _ => by decide
theorem not (dr sr1 : Reg) : Statement (.not dr sr1) := fun _ => base6 ..
theorem ldi (dr : Reg) (off : BitVec 9) : Statement (.ldi dr off) := fun _ => pc9 ..
theorem sti (sr : Reg) (off : BitVec 9) : Statement (.sti sr off) := fun _ => pc9 ..
theorem jmp (base : Reg) : Statement (.jmp base) := fun _ => base6 ..
theorem res : Statement .res := fun _ => by decide
theorem lea (dr : Reg) (off : BitVec 9) : Statement (.lea dr off) := fun _ => pc9 ..
theorem jsrr (base : Reg) : Statement (.jsrr base) := fun _ => by
  revert base
  decide
theorem jsr (off : BitVec 11) : Statement (.jsr off) := fun _ => by
  refine word_eq fun i hi => ?_
  simp only [encode, rowOf, BitVec.getLsbD_and, getLsbD_encodePc11]
  interval_cases i <;> simp [Machine.params, Machine.defaultOpcodeMap]
theorem trapGetc : Statement .trapGetc := fun _ => by decide
theorem trapOut : Statement .trapOut := fun _ => by decide
theorem trapPuts : Statement .trapPuts := fun _ => by decide
theorem trapIn : Statement .trapIn := fun _ => by decide
theorem trapPutsp : Statement .trapPutsp := fun _ => by decide
theorem trapHalt : Statement .trapHalt := fun _ => by decide
theorem trapUndef00 (v : BitVec 8) : Statement (.trapUndef00 v) := by
  unfold Statement
  revert v
  decide
theorem trapUndef26 (v : BitVec 8) : Statement (.trapUndef26 v) := by
  unfold Statement
  revert v
  decide
theorem trapUndef28 (v : BitVec 8) : Statement (.trapUndef28 v) := by
  unfold Statement
  revert v
  decide
theorem trapUndef30 (v : BitVec 8) : Statement (.trapUndef30 v) := by
  unfold Statement
  revert v
  decide
theorem trapUndef40 (v : BitVec 8) : Statement (.trapUndef40 v) := by
  unfold Statement
  revert v
  decide
theorem trapUndef80 (v : BitVec 8) : Statement (.trapUndef80 v) := by
  unfold Statement
  revert v
  decide

/-- The law holds of every instruction. -/
theorem all (i : Instr) : Statement i := by
  cases i
  case br => exact br _ _ _ _
  case add => exact add _ _ _
  case addi => exact addi _ _ _
  case ld => exact ld _ _
  case st => exact st _ _
  case jsrr => exact jsrr _
  case jsr => exact jsr _
  case and => exact and _ _ _
  case andi => exact andi _ _ _
  case ldr => exact ldr _ _ _
  case str => exact str _ _ _
  case rti => exact rti
  case not => exact not _ _
  case ldi => exact ldi _ _
  case sti => exact sti _ _
  case jmp => exact jmp _
  case res => exact res
  case lea => exact lea _ _
  case trapGetc => exact trapGetc
  case trapOut => exact trapOut
  case trapPuts => exact trapPuts
  case trapIn => exact trapIn
  case trapPutsp => exact trapPutsp
  case trapHalt => exact trapHalt
  case trapUndef00 => exact trapUndef00 _
  case trapUndef26 => exact trapUndef26 _
  case trapUndef28 => exact trapUndef28 _
  case trapUndef30 => exact trapUndef30 _
  case trapUndef40 => exact trapUndef40 _
  case trapUndef80 => exact trapUndef80 _

end Sys2Proof.Laws.RowBits
end

