-- ==== Sys2Proof/Tests/Slice0.lean ====
section
/-! SUPPORT. The model's own tests: an ill-formed term for each check, a Word of each row written out from its format
(30_encoding R63), one step of each instruction on a vector of 95_test_vectors, and a witness for the hypotheses of
each statement. -/

namespace Sys2Proof.Tests
open Sys2Proof.Machine

/-! ### WellFormed: each check refuses (30_encoding R76, the ranges of the six undefined rows) -/

theorem test_wf_undef00_refuses : (Instr.trapUndef00 0x20).wellFormed = false := by decide
theorem test_wf_undef26_refuses : (Instr.trapUndef26 0x25).wellFormed = false ∧ (Instr.trapUndef26 0x28).wellFormed = false := by decide
theorem test_wf_undef28_refuses : (Instr.trapUndef28 0x27).wellFormed = false ∧ (Instr.trapUndef28 0x30).wellFormed = false := by decide
theorem test_wf_undef30_refuses : (Instr.trapUndef30 0x2F).wellFormed = false ∧ (Instr.trapUndef30 0x40).wellFormed = false := by decide
theorem test_wf_undef40_refuses : (Instr.trapUndef40 0x3F).wellFormed = false ∧ (Instr.trapUndef40 0x80).wellFormed = false := by decide
theorem test_wf_undef80_refuses : (Instr.trapUndef80 0x7F).wellFormed = false := by decide

/-! ### The configuration record (00_scope R7, the table of defaults) -/

theorem test_params_maps :
    params.opcodeMap .ldi = 10 ∧ params.opcodeMap .jmp = 12 ∧ params.trapMap .putsp = 0x24 ∧
    params.ccEncoding .pos = 0b001 ∧ params.ccEncoding .zero = 0b010 ∧ params.ccEncoding .neg = 0b100 ∧
    params.kbsrAddr = 0xFE00 ∧ params.kbdrAddr = 0xFE02 ∧ params.undefTrapPolicy = .abort := by decide

/-! ### Decode: one Word a row, written field by field (30_encoding R63), at the mask and pattern of R76 -/

theorem test_decode_br : decode 0b0000_0_1_0_000000101#16 = .br false true false 5 := by decide
theorem test_decode_add : decode 0b0001_010_001_0_00_000#16 = .add 2 1 0 := by decide
theorem test_decode_addi : decode 0b0001_000_000_1_11111#16 = .addi 0 0 0b11111 := by decide
theorem test_decode_ld : decode 0b0010_001_000000010#16 = .ld 1 2 := by decide
theorem test_decode_st : decode 0b0011_001_111111111#16 = .st 1 0x1FF := by decide
theorem test_decode_jsrr : decode 0b0100_0_00_010_000000#16 = .jsrr 2 := by decide
theorem test_decode_jsr : decode 0b0100_1_10000000000#16 = .jsr 0x400 := by decide
theorem test_decode_and : decode 0b0101_010_001_0_00_111#16 = .and 2 1 7 := by decide
theorem test_decode_andi : decode 0b0101_001_010_1_10000#16 = .andi 1 2 0b10000 := by decide
theorem test_decode_ldr : decode 0b0110_001_010_000011#16 = .ldr 1 2 3 := by decide
theorem test_decode_str : decode 0b0111_000_110_111111#16 = .str 0 6 0b111111 := by decide
theorem test_decode_rti : decode 0b1000_000000000000#16 = .rti ∧ decode 0x8ABC = .rti := by decide
theorem test_decode_not : decode 0b1001_001_000_111111#16 = .not 1 0 ∧ decode 0x9200 = .not 1 0 := by decide
theorem test_decode_ldi : decode 0b1010_001_000000010#16 = .ldi 1 2 := by decide
theorem test_decode_sti : decode 0b1011_001_000000010#16 = .sti 1 2 := by decide
theorem test_decode_jmp : decode 0b1100_000_111_000000#16 = .jmp 7 ∧ decode 0xCFFF = .jmp 7 := by decide
theorem test_decode_res : decode 0b1101_000000000000#16 = .res ∧ decode 0xDFFF = .res := by decide
theorem test_decode_lea : decode 0b1110_000_000000010#16 = .lea 0 2 := by decide
theorem test_decode_getc : decode 0b1111_0000_00100000#16 = .trapGetc := by decide
theorem test_decode_out : decode 0b1111_0000_00100001#16 = .trapOut ∧ decode 0xFF21 = .trapOut := by decide
theorem test_decode_puts : decode 0b1111_0000_00100010#16 = .trapPuts := by decide
theorem test_decode_in : decode 0b1111_0000_00100011#16 = .trapIn := by decide
theorem test_decode_putsp : decode 0b1111_0000_00100100#16 = .trapPutsp := by decide
theorem test_decode_halt : decode 0b1111_0000_00100101#16 = .trapHalt ∧ decode 0xFF25 = .trapHalt := by decide
theorem test_decode_undef00 : decode 0xF000 = .trapUndef00 0x00 ∧ decode 0xF01F = .trapUndef00 0x1F := by decide
theorem test_decode_undef26 : decode 0xF026 = .trapUndef26 0x26 ∧ decode 0xF027 = .trapUndef26 0x27 := by decide
theorem test_decode_undef28 : decode 0xF028 = .trapUndef28 0x28 ∧ decode 0xF02F = .trapUndef28 0x2F := by decide
theorem test_decode_undef30 : decode 0xF030 = .trapUndef30 0x30 ∧ decode 0xF03F = .trapUndef30 0x3F := by decide
theorem test_decode_undef40 : decode 0xF040 = .trapUndef40 0x40 ∧ decode 0xF07F = .trapUndef40 0x7F := by decide
theorem test_decode_undef80 : decode 0xF080 = .trapUndef80 0x80 ∧ decode 0xF0FF = .trapUndef80 0xFF := by decide
theorem test_decode_table_word : decodeTableWord 16 0x1458 = some (.add 2 1 0) := by decide
theorem test_encode_not : encode (.not 1 0) = 0x923F := by decide
theorem test_encode_jsr : encode (.jsr 0x010) = 0x4810 := by decide
theorem test_rows_count : decodeRows.length = 30 := by decide

/-! ### One step (95_test_vectors Part 2) -/

/-- The instruction Word at `pc` of the state. -/
def place (w : Word) (s : State) : State := { s with mem := s.mem.setWord s.pc w }

/-- Words stored in memory. -/
def store (cells : List (Word × Word)) (s : State) : State :=
  { s with mem := cells.foldl (fun m c => m.setWord c.1 c.2) s.mem }

/-- Registers given values. -/
def regs (vals : List (Reg × Word)) (s : State) : State :=
  { s with x := vals.foldl (fun x c => x.set c.1 c.2) s.x }

/-- The step answers a next state that passes the check. -/
def steps (s : State) (check : State → Bool) : Bool :=
  match step s with
  | .next t => check t
  | .fault _ => false
  | .refused _ => false

/-- The reset state, under a short name. -/
def r0 : State := State.reset

/-- V-OP-2. -/
theorem test_add_overflow_is_silent : steps (place 0x1440 (regs [(1, 0x7FFF), (0, 1)] r0))
    (fun t => decide (t.reg 2 = 0x8000 ∧ t.cc = .neg ∧ t.pc = 0x3001)) = true := by decide
/-- V-OP-5. -/
theorem test_add_same_registers : steps (place 0x1241 (regs [(1, 0x4000)] r0))
    (fun t => decide (t.reg 1 = 0x8000 ∧ t.cc = .neg)) = true := by decide
/-- V-OP-10. -/
theorem test_addi_sign_extends : steps (place 0x1730 (regs [(4, 8)] r0))
    (fun t => decide (t.reg 3 = 0xFFF8 ∧ t.cc = .neg)) = true := by decide
/-- V-PC-1. -/
theorem test_pc_wraps : steps (place 0x1021 { r0 with pc := 0xFFFF })
    (fun t => decide (t.reg 0 = 1 ∧ t.cc = .pos ∧ t.pc = 0)) = true := by decide
/-- V-OP-13. -/
theorem test_and : steps (place 0x5440 (regs [(1, 0x8001), (0, 0xF000)] r0))
    (fun t => decide (t.reg 2 = 0x8000 ∧ t.cc = .neg)) = true := by decide
/-- V-OP-17. -/
theorem test_andi_sign_extends : steps (place 0x52B0 (regs [(2, 0xABCD)] r0))
    (fun t => decide (t.reg 1 = 0xABC0 ∧ t.cc = .neg)) = true := by decide
/-- V-OP-19. -/
theorem test_not_zero : steps (place 0x923F (regs [(0, 0xFFFF)] r0))
    (fun t => decide (t.reg 1 = 0 ∧ t.cc = .zero)) = true := by decide
/-- V-C-1. -/
theorem test_br_taken : steps (place 0x0405 r0) (fun t => decide (t.pc = 0x3006)) = true := by decide
/-- V-C-10. -/
theorem test_br_not_taken : steps (place 0x07FE { r0 with pc := 0x3005, cc := .neg })
    (fun t => decide (t.pc = 0x3006)) = true := by decide
/-- V-C-20. -/
theorem test_jmp : steps (place 0xC080 (regs [(2, 0x4000)] r0))
    (fun t => decide (t.pc = 0x4000 ∧ t.reg 7 = 0)) = true := by decide
/-- V-C-13. -/
theorem test_jsr_backward : steps (place 0x4C00 { r0 with pc := 0x3400 })
    (fun t => decide (t.pc = 0x3001 ∧ t.reg 7 = 0x3401)) = true := by decide
/-- V-C-17. -/
theorem test_jsrr : steps (place 0x4080 (regs [(2, 0x4000)] r0))
    (fun t => decide (t.pc = 0x4000 ∧ t.reg 7 = 0x3001)) = true := by decide
/-- V-C-18. -/
theorem test_jsrr_r7_does_not_jump : steps (place 0x41C0 (regs [(7, 0x5000)] r0))
    (fun t => decide (t.pc = 0x3001 ∧ t.reg 7 = 0x3001)) = true := by decide
/-- V-LS-2. -/
theorem test_ld_itself : steps (place 0x23FF r0) (fun t => decide (t.reg 1 = 0x23FF ∧ t.cc = .pos)) = true := by decide
/-- V-K-8. -/
theorem test_ld_polls : steps (place 0x2001 { r0 with pc := 0xFDFE, input := [0x41], answers := [true] })
    (fun t => decide (t.reg 0 = 0x8000 ∧ t.mem.word 0xFE02 = 0x41 ∧ t.input = [])) = true := by decide
/-- V-K-1. -/
theorem test_ldi_polls_and_takes : steps (place 0xA001 (store [(0x3002, 0xFE00)] { r0 with input := [0x41], answers := [true] }))
    (fun t => decide (t.reg 0 = 0x8000 ∧ t.cc = .neg ∧ t.mem.word 0xFE00 = 0x8000 ∧ t.mem.word 0xFE02 = 0x41 ∧
      t.input = [])) = true := by decide
/-- V-K-3. -/
theorem test_ldi_data_word_is_plain : steps (place 0xA001 (store [(0x3002, 0xFE02), (0xFE02, 0x55)] { r0 with input := [0x41], answers := [true] }))
    (fun t => decide (t.reg 0 = 0x55 ∧ t.cc = .pos ∧ t.mem.word 0xFE00 = 0 ∧ t.input = [0x41])) = true := by decide
/-- V-LS-4. -/
theorem test_ldr_reads_twice : steps (place 0x6283 (store [(0x4003, 0x5000), (0x5000, 7)] (regs [(2, 0x4000)] r0)))
    (fun t => decide (t.reg 1 = 7 ∧ t.cc = .pos)) = true := by decide
/-- V-LS-5. -/
theorem test_ldr_wraps : steps (place 0x62BF (store [(0xFFFF, 0xFFFF)] r0))
    (fun t => decide (t.reg 1 = 0xFFFF ∧ t.cc = .neg)) = true := by decide
/-- V-LS-11. -/
theorem test_lea_sets_flags : steps (place 0xEAFF { r0 with pc := 0x7F00 })
    (fun t => decide (t.reg 5 = 0x8000 ∧ t.cc = .neg ∧ t.pc = 0x7F01)) = true := by decide
/-- V-LS-14. -/
theorem test_st_overwrites_itself : steps (place 0x33FF (regs [(1, 0xABCD)] r0))
    (fun t => decide (t.mem.word 0x3000 = 0xABCD ∧ t.cc = .zero)) = true := by decide
/-- V-LS-15. -/
theorem test_sti : steps (place 0xB202 (store [(0x3003, 0x4000)] (regs [(1, 0x1234)] r0)))
    (fun t => decide (t.mem.word 0x4000 = 0x1234 ∧ t.mem.word 0x3003 = 0x4000)) = true := by decide
/-- V-LS-20. -/
theorem test_str_wraps : steps (place 0x729F (regs [(1, 1), (2, 0xFFF0)] r0))
    (fun t => decide (t.mem.word 0x000F = 1 ∧ t.mem.word 0xFFF0 = 0)) = true := by decide
/-- V-T-3. -/
theorem test_getc_zero_extends : steps (place 0xF020 { r0 with input := [0xFF, 0x61] })
    (fun t => decide (t.reg 0 = 0xFF ∧ t.cc = .pos ∧ t.reg 7 = 0x3001 ∧ t.input = [0x61] ∧ t.output = [])) = true := by decide
/-- V-T-2. -/
theorem test_getc_nul : steps (place 0xF020 { r0 with cc := .neg, input := [0] })
    (fun t => decide (t.reg 0 = 0 ∧ t.cc = .zero)) = true := by decide
/-- V-T-5. -/
theorem test_out : steps (place 0xF021 (regs [(0, 0x1241)] r0))
    (fun t => decide (t.output = [0x41] ∧ t.reg 0 = 0x1241 ∧ t.reg 7 = 0x3001)) = true := by decide
/-- V-T-8. -/
theorem test_puts_zero_low_byte : steps (place 0xF022 (store [(0x4000, 0x4100), (0x4001, 0x0142)] (regs [(0, 0x4000)] r0)))
    (fun t => decide (t.output = [0x00, 0x42] ∧ t.flushed = 2)) = true := by decide
/-- V-T-10. -/
theorem test_puts_wraps : steps (place 0xF022 (store [(0xFFFF, 0x41), (0x0000, 0x42)] (regs [(0, 0xFFFF)] r0)))
    (fun t => decide (t.output = [0x41, 0x42])) = true := by decide
/-- V-T-11, the registers. -/
theorem test_in_stores : steps (place 0xF023 { r0 with input := [0x78] })
    (fun t => decide (t.reg 0 = 0x78 ∧ t.cc = .pos ∧ t.reg 7 = 0x3001 ∧ t.input = [])) = true := by decide
/-- V-T-11, the output: the prompt, then the echo. -/
theorem test_in_output : (execTrapIn { r0 with input := [0x78] } : Result) =
    .next (((((r0.link.conPut params.inPrompt).conFlush.setInput []).conPut [0x78]).conFlush).writeDest 0 0x78) := rfl
/-- V-T-13. -/
theorem test_putsp : steps (place 0xF024 (store [(0x4000, 0x4100), (0x4001, 0x0043)] (regs [(0, 0x4000)] r0)))
    (fun t => decide (t.output = [0x00, 0x41, 0x43])) = true := by decide
/-- V-T-14. -/
theorem test_halt : steps (place 0xF025 r0)
    (fun t => decide (t.run = .halted ∧ t.reg 7 = 0x3001 ∧ t.pc = 0x3001)) = true := by decide
/-- V-T-15 to V-T-18. -/
theorem test_undefined_traps : ([0xF000, 0xF01F, 0xF026, 0xF028, 0xF030, 0xF040, 0xF0FF].all fun w =>
    steps (place w r0) (fun t => decide (t.run = .aborted .undefinedTrap ∧ t.reg 7 = 0x3001 ∧ t.pc = 0x3001))) = true := by decide
/-- V-U-1. -/
theorem test_rti : steps (place 0x8000 r0)
    (fun t => decide (t.run = .aborted .rtiUnimplemented ∧ t.pc = 0x3001 ∧ t.reg 7 = 0)) = true := by decide
/-- V-U-2. -/
theorem test_res : steps (place 0xD000 r0)
    (fun t => decide (t.run = .aborted .resUnimplemented ∧ t.pc = 0x3001)) = true := by decide
/-- V-K-6. -/
theorem test_fetch_from_status_aborts : steps { r0 with pc := 0xFE00, input := [0x41], answers := [true] }
    (fun t => decide (t.run = .aborted .rtiUnimplemented ∧ t.pc = 0xFE01 ∧ t.mem.word 0xFE02 = 0x41)) = true := by decide
/-- V-K-7: no character, so the free answer does not matter. -/
theorem test_fetch_from_status_clears : steps (store [(0xFE00, 0xF025)] { r0 with pc := 0xFE00, answers := [true] })
    (fun t => decide (t.run = .running ∧ t.pc = 0xFE01 ∧ t.mem.word 0xFE00 = 0)) = true := by decide
/-- V-IMG-1. -/
theorem test_image : (Memory.loadImage [] [0x30, 0x00, 0x12, 0x34, 0xAB, 0xCD]).map (fun m => (m.word 0x3000, m.word 0x3001, m.word 0x3002)) =
    some (0x1234, 0xABCD, 0) := by decide
/-- V-IMG-2. -/
theorem test_image_drops : (Memory.loadImage [] [0xFF, 0xFF, 0x00, 0x01, 0x00, 0x02]).map (fun m => (m.word 0xFFFF, m.word 0)) =
    some (1, 0) := by decide

/-! ### Witnesses: a state and operands that meet the hypotheses of each statement -/

theorem witness_DecodeOfEncodeIsTheInstruction :
    (Instr.trapUndef26 0x27).wellFormed = true ∧ (Instr.br true false true 0x1FF).wellFormed = true := by decide
theorem witness_UncoveredBitsAreIgnored : ∀ dr sr1 : Reg, Instr.rti ≠ .not dr sr1 := by decide
theorem witness_SignExtensionReplicatesTheSignBit : (1 ≤ 1 ∧ 1 ≤ 16) ∧ (1 ≤ 16 ∧ 16 ≤ 16) := by decide
theorem witness_SetccFollowsTheValue : (0x0000#16).toNat = 0 ∧ (1 ≤ (0x7FFF#16).toNat ∧ (0x7FFF#16).toNat ≤ 0x7FFF) ∧
    (1 ≤ (0x0001#16).toNat ∧ (0x0001#16).toNat ≤ 0x7FFF) ∧ 0x8000 ≤ (0x8000#16).toNat := by decide
theorem witness_OnlyStatusReadsAreIntercepted : (0xFE01 : Word) ≠ params.kbsrAddr ∧ (0xFDFF : Word) ≠ params.kbsrAddr := by decide
theorem witness_KeyboardPollLatchesOrClears :
    ({ r0 with input := [0x41], answers := [true] } : State).kbdAvail = true ∧
    ({ r0 with input := [0x41], answers := [false] } : State).kbdAvail = false ∧
    ({ r0 with input := [], answers := [true] } : State).kbdAvail = false := by decide
theorem witness_StoresAreUnconditional :
    ({ r0 with input := [0x41], answers := [true] } : State).kbdAvail = true ∧
    ({ r0 with input := [0x41], answers := [false] } : State).kbdAvail = false := by decide
theorem witness_StepRunsTheDecodedInstruction : r0.run = .running ∧ r0.pc ≠ params.kbsrAddr := by decide
theorem witness_NoStepOnceStopped : ({ r0 with run := .halted } : State).run = .halted ∧
    ({ r0 with run := .aborted .undefinedTrap } : State).run = .aborted .undefinedTrap := by decide
theorem witness_PlacedWordIsExecutedNext : r0.pc ≠ params.kbsrAddr := by decide
theorem witness_FetchFromStatusAddressPolls :
    (let s : State := { r0 with pc := 0xFE00, input := [0x41], answers := [true] }
     s.run = .running ∧ s.pc = params.kbsrAddr ∧ s.kbdAvail = true) ∧
    (let s : State := { r0 with pc := 0xFE00 }
     s.run = .running ∧ s.pc = params.kbsrAddr ∧ s.kbdAvail = false) := ⟨⟨rfl, rfl, rfl⟩, rfl, rfl, by simp [State.kbdAvail, r0, State.reset]⟩
/-- The masks and patterns of the decoding clauses: one Word of each row. -/
theorem witness_decoding_clauses :
    (0x1458#16 &&& 0xF020 = 0x1000) ∧ (0x103F#16 &&& 0xF020 = 0x1020) ∧ (0x5440#16 &&& 0xF020 = 0x5000) ∧
    (0x52B0#16 &&& 0xF020 = 0x5020) ∧ (0x9200#16 &&& 0xF000 = 0x9000) ∧ (0x0405#16 &&& 0xF000 = 0x0000) ∧
    (0xCFFF#16 &&& 0xF000 = 0xC000) ∧ (0x4810#16 &&& 0xF800 = 0x4800) ∧ (0x46BF#16 &&& 0xF800 = 0x4000) ∧
    (0x2202#16 &&& 0xF000 = 0x2000) ∧ (0xA202#16 &&& 0xF000 = 0xA000) ∧ (0x6283#16 &&& 0xF000 = 0x6000) ∧
    (0xE002#16 &&& 0xF000 = 0xE000) ∧ (0x3202#16 &&& 0xF000 = 0x3000) ∧ (0xB202#16 &&& 0xF000 = 0xB000) ∧
    (0x7283#16 &&& 0xF000 = 0x7000) ∧ (0xFF20#16 &&& 0xF0FF = 0xF020) ∧ (0xFF21#16 &&& 0xF0FF = 0xF021) ∧
    (0xFF22#16 &&& 0xF0FF = 0xF022) ∧ (0xFF23#16 &&& 0xF0FF = 0xF023) ∧ (0xFF24#16 &&& 0xF0FF = 0xF024) ∧
    (0xFF25#16 &&& 0xF0FF = 0xF025) ∧ (0x8ABC#16 &&& 0xF000 = 0x8000) ∧ (0xDFFF#16 &&& 0xF000 = 0xD000) := by decide
theorem witness_BranchOnConditionCode : r0.cc = .zero ∧ ({ r0 with cc := .neg } : State).cc = .neg ∧
    ({ r0 with cc := .pos } : State).cc = .pos ∧
    ¬((true = true ∧ r0.cc = .neg) ∨ (false = true ∧ r0.cc = .zero) ∨ (true = true ∧ r0.cc = .pos)) := by decide
theorem witness_JsrrLinksBeforeReadingTheBase : (7 : Reg) = 7 ∧ (2 : Reg) ≠ 7 := by decide
theorem witness_LdLoadsPcRelative : pcRel9 r0.pc 2 ≠ params.kbsrAddr ∧ pcRel9 (0xFDFF : Word) 1 = params.kbsrAddr := by decide
theorem witness_LdiLoadsIndirect : pcRel9 r0.pc 2 ≠ params.kbsrAddr ∧ r0.mem.word (pcRel9 r0.pc 2) ≠ params.kbsrAddr := by decide
theorem witness_LdrReadsTwice : baseOff6 (r0.reg 2) 3 ≠ params.kbsrAddr ∧
    r0.mem.word (baseOff6 (r0.reg 2) 3) ≠ params.kbsrAddr := by decide
theorem witness_StiStoresIndirect : pcRel9 r0.pc 2 ≠ params.kbsrAddr := by decide
theorem witness_StrThenLdrLoadsThroughTheStoredWord :
    (let s := regs [(1, 0x5000), (2, 0x4000)] r0
     baseOff6 (s.reg 2) 3 ≠ params.kbsrAddr ∧ s.reg 1 ≠ params.kbsrAddr ∧ s.reg 1 ≠ baseOff6 (s.reg 2) 3) ∧
    (let s := regs [(2, 0x4000)] r0
     s.reg 2 = baseOff6 (s.reg 2) 0 ∧ s.reg 2 ≠ params.kbsrAddr) := by decide
theorem witness_StoredWordIsFetchedNext : r0.run = .running ∧ r0.pc ≠ params.kbsrAddr := by decide
theorem witness_GetcTakesACharacter : ({ r0 with input := [0x61, 0x62] } : State).input = 0x61 :: [0x62] ∧ r0.input = [] := by decide
theorem witness_InPromptsTakesAndEchoes : ({ r0 with input := [0x00] } : State).input = 0x00 :: [] ∧ r0.input = [] := by decide

/-- The string "Hi" at R0. -/
def hi : State := store [(0x4000, 0x0048), (0x4001, 0x0069)] (regs [(0, 0x4000)] r0)

theorem witness_PutsWritesTheString : 2 < 65536 ∧ hi.mem.word (hi.reg 0 + BitVec.ofNat 16 2) = 0 ∧
    (∀ j, j < 2 → hi.mem.word (hi.reg 0 + BitVec.ofNat 16 j) ≠ 0) ∧ r0.mem.word (r0.reg 0 + BitVec.ofNat 16 0) = 0 := by decide
theorem witness_PutspWritesThePackedString : 2 < 65536 ∧ hi.mem.word (hi.reg 0 + BitVec.ofNat 16 2) = 0 ∧
    (∀ j, j < 2 → hi.mem.word (hi.reg 0 + BitVec.ofNat 16 j) ≠ 0) := by decide

/-- `n` cells of ones from address `a` on. -/
def ones : Nat → Nat → Memory
  | 0, _ => []
  | n + 1, a => (a, 1) :: ones n (a + 1)

theorem byte_ones (n a b : Nat) (hab : a ≤ b) (hb : b < a + n) : (ones n a).byte b = 1 := by
  induction n generalizing a with
  | zero => omega
  | succ n ih =>
    rw [ones, Memory.byte_cons]
    split
    · rfl
    · exact ih (a + 1) (by omega) (by omega)

/-- A memory without a zero Word: the string that never ends (of PUTS, of PUTSP, and of the statement on stops). -/
theorem witness_endless_string : ∀ a : Word, (State.setMem r0 (ones 131072 0)).mem.word a ≠ 0 := by
  intro a h
  have ha := a.isLt
  have h1 := congrArg highByte h
  simp only [State.setMem, Memory.word, highByte_joinBytes, byte_ones 131072 0 (2 * a.toNat) (by omega) (by omega)] at h1
  exact absurd h1 (by decide)

theorem witness_UndefinedTrapAbortsAfterTheLink :
    ((0xF01F#16 &&& 0xF000 = 0xF000) ∧ (0xF01F#16).toNat % 256 < 0x20) ∧
    ((0xF026#16 &&& 0xF000 = 0xF000) ∧ 0x25 < (0xF026#16).toNat % 256) ∧
    Instr.trapUndef40 0x41 ∈ [.trapUndef00 0x41, .trapUndef26 0x41, .trapUndef28 0x41, .trapUndef30 0x41, .trapUndef40 0x41,
      .trapUndef80 0x41] := by decide
/-- Of the statements over all instructions (`exec i s = .next t`): with and without a flag register, not a BR. -/
theorem witness_exec_next : (∃ t, exec (.lea 3 1) r0 = .next t) ∧ (∃ t, exec (.st 3 1) r0 = .next t) ∧
    ∀ n z p off, Instr.lea 3 1 ≠ .br n z p off := ⟨⟨_, rfl⟩, ⟨_, rfl⟩, fun _ _ _ _ h => by cases h⟩
theorem witness_MemoryWritersAndPolls :
    (∃ t, exec (.st 3 1) r0 = .next t) ∧ storeOf r0 (.st 3 1) = some 0x3001 ∧ params.kbsrAddr ∉ readsOf r0 (.st 3 1) ∧
    (∃ t, exec (.ld 3 1) { r0 with pc := 0xFDFF } = .next t) ∧
    params.kbsrAddr ∈ readsOf { r0 with pc := 0xFDFF } (.ld 3 1) := ⟨⟨_, rfl⟩, by decide, by decide, ⟨_, rfl⟩, by decide⟩
theorem witness_step_next : steps r0 (fun t => decide (t.polls = r0.polls ∧ t.input = r0.input ∧ r0.Inv)) = true := by decide
theorem witness_InvariantHoldsAtResetAndLaunch : Memory.wf [(0x6000, 0x12)] := by decide
theorem witness_ResetLeavesTheStatedValues : State.launch (Vector.replicate 8 0xAAAA) [] [0x61] [true] = State.launch (Vector.replicate 8 0xAAAA) [] [0x61] [true] ∧
    State.launch (Vector.replicate 8 0xAAAA) [] [0x61] [true] ≠ State.reset := ⟨rfl, by decide⟩

end Sys2Proof.Tests
end

/-! What one instruction can do, said once (`ExecEffect`, `exec_effect`), and the rules of 10_state derived from it. -/

namespace Sys2Proof.Machine

/-! ### Reads in sequence -/

/-- The state after intercepted reads at the listed addresses, in order. -/
def State.afterReads (s : State) : List Word → State
  | [] => s
  | a :: as => (s.memRead a).2.afterReads as

/-- What every single read leaves as it is, the reads in sequence leave as it is. -/
theorem State.afterReads_keeps {α : Type} {f : State → α} (hf : ∀ s a, f (s.memRead a).2 = f s) (s : State)
    (as : List Word) : f (s.afterReads as) = f s := by
  induction as generalizing s with
  | nil => rfl
  | cons a as ih => exact (ih _).trans (hf s a)

@[simp] theorem State.afterReads_reg (s : State) (as : List Word) (r : Reg) : (s.afterReads as).reg r = s.reg r :=
  State.afterReads_keeps (f := fun s => s.reg r) (fun s a => s.memRead_reg a r) s as

@[simp] theorem State.afterReads_pc (s : State) (as : List Word) : (s.afterReads as).pc = s.pc :=
  State.afterReads_keeps State.memRead_pc s as

@[simp] theorem State.afterReads_cc (s : State) (as : List Word) : (s.afterReads as).cc = s.cc :=
  State.afterReads_keeps State.memRead_cc s as

@[simp] theorem State.afterReads_run (s : State) (as : List Word) : (s.afterReads as).run = s.run :=
  State.afterReads_keeps State.memRead_run s as

@[simp] theorem State.afterReads_output (s : State) (as : List Word) : (s.afterReads as).output = s.output :=
  State.afterReads_keeps State.memRead_output s as

/-- A read takes at most a character from the front of the input stream (20_memory R42). -/
theorem State.memRead_input_suffix (s : State) (a : Word) : (s.memRead a).2.input <:+ s.input := by
  rcases s.memRead_cases a with ⟨-, h⟩ | ⟨-, h⟩
  · rw [h]
  · rcases s.kbdIntercept_cases with ⟨-, c, rest, hin, hk⟩ | ⟨-, hk⟩
    · simp [h, hk, hin]
    · simp [h, hk]

theorem State.afterReads_input_suffix (s : State) (as : List Word) : (s.afterReads as).input <:+ s.input := by
  induction as generalizing s with
  | nil => exact List.suffix_rfl
  | cons a as ih => exact (ih _).trans (s.memRead_input_suffix a)

/-! ### The effect of an instruction -/

/-- The next states an instruction can answer, by family, each beside what the tables of Safety.lean say of its
instructions; which Word goes to DR or to memory is left open. `s` is the state after the fetch. -/
inductive ExecEffect (s : State) : Instr → State → Prop where
  /-- BR, taken or not, and JMP: `pc` alone (R111, R112). -/
  | jump {i : Instr} (hregs : regsWritten i = []) (hflag : flagReg i = none) (hrun : runWritten i = none) :
      ExecEffect s i (s.setPc (nextPc s i))
  /-- JSR and JSRR: the link, then `pc` (R113, R114). -/
  | call {i : Instr} (hregs : regsWritten i = [7]) (hflag : flagReg i = none) (hrun : runWritten i = none) :
      ExecEffect s i (s.link.setPc (nextPc s i))
  /-- The operate instructions, the loads and LEA: the reads, then the destination with its flags (R100, R120). -/
  | dest {i : Instr} (dr : Reg) (v : Word) (hpc : nextPc s i = s.pc) (hregs : regsWritten i = [dr])
      (hflag : flagReg i = some dr) (hrun : runWritten i = none) :
      ExecEffect s i ((s.afterReads (readsOf s i)).writeDest dr v)
  /-- The stores: the reads, then the Word written (R126 to R128). -/
  | store {i : Instr} (a v : Word) (haddr : storeOf s i = some a) (hpc : nextPc s i = s.pc) (hregs : regsWritten i = [])
      (hflag : flagReg i = none) (hrun : runWritten i = none) :
      ExecEffect s i ((s.afterReads (readsOf s i)).memWrite a v)
  /-- RTI and RES: the fatal condition (R161, R162). -/
  | abort {i : Instr} (cause : Cause) (hpc : nextPc s i = s.pc) (hregs : regsWritten i = [])
      (hflag : flagReg i = none) (hrun : runWritten i = some (.aborted cause)) :
      ExecEffect s i (s.raiseAbort cause)
  /-- An undefined trap: the link, then the fatal condition (R148). -/
  | undefinedTrap {i : Instr} (cause : Cause) (hpc : nextPc s i = s.pc) (hregs : regsWritten i = [7])
      (hflag : flagReg i = none) (hrun : runWritten i = some (.aborted cause)) :
      ExecEffect s i (s.link.raiseAbort cause)
  /-- OUT, PUTS and PUTSP: the link, then bytes written and flushed (R143, R144, R146). -/
  | print {i : Instr} (bytes : List Byte) (hpc : nextPc s i = s.pc) (hregs : regsWritten i = [7])
      (hflag : flagReg i = none) (hrun : runWritten i = none) :
      ExecEffect s i (s.link.conPut bytes).conFlush
  /-- HALT (R147). -/
  | halt : ExecEffect s .trapHalt ((s.link.conPut params.haltNotice).conFlush.setRun .halted)
  /-- GETC with a character (R142). -/
  | getc (c : Byte) (rest : List Byte) (hin : s.input = c :: rest) :
      ExecEffect s .trapGetc ((s.link.setInput rest).writeDest 0 (zext8 c))
  /-- IN with a character (R145). -/
  | inEcho (c : Byte) (rest : List Byte) (hin : s.input = c :: rest) :
      ExecEffect s .trapIn
        (((((s.link.conPut params.inPrompt).conFlush.setInput rest).conPut [c]).conFlush).writeDest 0 (zext8 c))

/-- A BR that is not taken leaves the `pc` it finds, so both of its cases are one write of `pc` (R111). -/
theorem execBr_eq (n z p : Bool) (off : BitVec 9) (s : State) :
    execBr n z p off s = .next (s.setPc (nextPc s (.br n z p off))) := by
  by_cases h : branchTaken n z p s.cc = true
  · simp [execBr, nextPc, h]
  · simp only [execBr, nextPc, h]
    rfl

/-- JSRR's target is read after the link, so with base 7 it is the incremented `pc` (R114). -/
theorem execJsrr_eq (base : Reg) (s : State) :
    execJsrr base s = .next (s.link.setPc (nextPc s (.jsrr base))) := by
  simp [execJsrr, nextPc, eq_comm]

/-- PUTS and PUTSP, where they answer a next state. -/
theorem putString_next {bytes : Word → List Byte} {s t : State} (h : putString bytes s = .next t) :
    ∃ bs, t = (s.conPut bs).conFlush := by
  rcases putString_cases bytes s with ⟨-, hs⟩ | ⟨ws, -, hs⟩
  · cases hs ▸ h
  · cases hs ▸ h
    exact ⟨_, rfl⟩

/-- GETC and IN, where they answer a next state. -/
theorem takeChar_next {echo : Byte → State → State} {s t : State} (h : takeChar echo s = .next t) :
    ∃ c rest, s.input = c :: rest ∧ t = (echo c (s.setInput rest)).writeDest 0 (zext8 c) := by
  rcases takeChar_cases echo s with ⟨-, hs⟩ | ⟨c, rest, hin, hs⟩
  · cases hs ▸ h
  · cases hs ▸ h
    exact ⟨c, rest, hin, rfl⟩

/-- Every next state an instruction answers is one of the effects: the one case split over `exec`. -/
theorem exec_effect {i : Instr} {s t : State} (h : exec i s = .next t) : ExecEffect s i t := by
  cases i
  case br n z p off =>
    cases (execBr_eq n z p off s).symm.trans h
    exact .jump rfl rfl rfl
  case jmp =>
    cases h
    exact .jump rfl rfl rfl
  case jsrr base =>
    cases (execJsrr_eq base s).symm.trans h
    exact .call rfl rfl rfl
  case jsr =>
    cases h
    exact .call rfl rfl rfl
  case add | addi | and | andi | not | ld | ldi | ldr | lea =>
    cases h
    exact .dest _ _ rfl rfl rfl rfl
  case st | sti | str =>
    cases h
    exact .store _ _ rfl rfl rfl rfl rfl
  case rti | res =>
    cases h
    exact .abort _ rfl rfl rfl rfl
  case trapUndef00 | trapUndef26 | trapUndef28 | trapUndef30 | trapUndef40 | trapUndef80 =>
    cases h
    exact .undefinedTrap _ rfl rfl rfl rfl
  case trapOut =>
    cases h
    exact .print _ rfl rfl rfl rfl
  case trapPuts | trapPutsp =>
    obtain ⟨bs, rfl⟩ := putString_next h
    exact .print bs rfl rfl rfl rfl
  case trapHalt =>
    cases h
    exact .halt
  case trapGetc =>
    obtain ⟨c, rest, hin, rfl⟩ := takeChar_next h
    exact .getc c rest hin
  case trapIn =>
    obtain ⟨c, rest, hin, rfl⟩ := takeChar_next h
    exact .inEcho c rest hin

/-- A step that answers a next state: the engine runs, and the fetched instruction answers that state (40 R90, R93). -/
theorem step_next {s t : State} (h : step s = .next t) :
    s.run = .running ∧ exec (decode s.fetch.1) s.fetch.2 = .next t := by
  unfold step at h
  split at h
  next => cases h
  next hstop => exact ⟨stopOf_eq_none.1 hstop, h⟩

/-! ### The condition code as an operand -/

/-- The state with another condition code. -/
def State.setCond (s : State) (c : Cond) : State := { s with cc := c }

@[simp] theorem State.setCond_pc (s : State) (c : Cond) : (s.setCond c).pc = s.pc := rfl
@[simp] theorem State.setCond_output (s : State) (c : Cond) : (s.setCond c).output = s.output := rfl

/-- The flag update overwrites whatever condition code there was. -/
@[simp] theorem State.writeDest_setCond (s : State) (c : Cond) (dr : Reg) (v : Word) :
    (s.setCond c).writeDest dr v = s.writeDest dr v := rfl

@[simp] theorem State.link_setCond (s : State) (c : Cond) : (s.setCond c).link = s.link.setCond c := rfl

/-- The interception neither reads nor writes the condition code. -/
theorem State.kbdIntercept_setCond (s : State) (c : Cond) :
    (s.setCond c).kbdIntercept = s.kbdIntercept.setCond c := by
  have havail : (s.setCond c).kbdAvail = s.kbdAvail := rfl
  rcases s.kbdIntercept_cases with ⟨h, b, rest, hin, hk⟩ | ⟨h, hk⟩ <;>
    rcases (s.setCond c).kbdIntercept_cases with ⟨h', b', rest', hin', hk'⟩ | ⟨h', hk'⟩
  · obtain ⟨rfl, rfl⟩ := List.cons.inj (hin.symm.trans hin')
    rw [hk, hk']
    rfl
  · simp [havail, h] at h'
  · simp [havail, h] at h'
  · rw [hk, hk']
    rfl

/-- A read neither reads nor writes the condition code. -/
@[simp] theorem State.memRead_setCond (s : State) (c : Cond) (a : Word) :
    (s.setCond c).memRead a = ((s.memRead a).1, (s.memRead a).2.setCond c) := by
  by_cases h : a = params.kbsrAddr
  · subst h
    rw [State.memRead_kbsr, State.memRead_kbsr, State.kbdIntercept_setCond]
    rfl
  · rw [State.memRead_plain h, State.memRead_plain h]
    rfl

@[simp] theorem loadWord_setCond (s : State) (c : Cond) (dr : Reg) (a : Word) :
    loadWord dr a (s.setCond c) = loadWord dr a s := by
  simp [loadWord_eq]

@[simp] theorem loadIndirect_setCond (s : State) (c : Cond) (dr : Reg) (a : Word) :
    loadIndirect dr a (s.setCond c) = loadIndirect dr a s := by
  simp [loadIndirect_eq]

/-- GETC and IN do the same under every condition code, when what they do between the read and the write does. -/
theorem takeChar_setCond {echo : Byte → State → State} {c : Cond}
    (hecho : ∀ b t, echo b (t.setCond c) = (echo b t).setCond c) (s : State) :
    takeChar echo (s.setCond c) = takeChar echo s := by
  rcases takeChar_cases echo s with ⟨hin, h⟩ | ⟨b, rest, hin, h⟩ <;>
    rcases takeChar_cases echo (s.setCond c) with ⟨hin', h'⟩ | ⟨b', rest', hin', h'⟩
  · rw [h, h', State.setCond_output]
  · cases hin.symm.trans hin'
  · cases hin.symm.trans hin'
  · obtain ⟨rfl, rfl⟩ := List.cons.inj (hin.symm.trans hin')
    have hset : (s.setCond c).setInput rest = (s.setInput rest).setCond c := rfl
    rw [h, h', hset, hecho, State.writeDest_setCond]

/-- PUTS and PUTSP do the same under every condition code. -/
theorem putString_setCond {bytes : Word → List Byte} {s t : State} (c : Cond) (h : putString bytes s = .next t) :
    putString bytes (s.setCond c) = .next (t.setCond c) := by
  rcases putString_cases bytes s with ⟨-, hs⟩ | ⟨ws, hws, hs⟩
  · cases hs ▸ h
  · cases hs ▸ h
    have hws' : (s.setCond c).mem.stringFrom memWords ((s.setCond c).reg 0) = some ws := hws
    simp only [putString, hws']
    rfl

/-- An instruction that sets the condition code does the same whatever it was. -/
theorem exec_setCond_of_flagReg {i : Instr} (hflag : (flagReg i).isSome = true) (s : State) (c : Cond) :
    exec i (s.setCond c) = exec i s := by
  cases i
  case add | addi | and | andi | not | lea => rfl
  case ld => exact loadWord_setCond ..
  case ldi | ldr => exact loadIndirect_setCond ..
  case trapGetc => exact takeChar_setCond (fun _ _ => rfl) s.link
  case trapIn => exact takeChar_setCond (fun _ _ => rfl) (s.link.conPut params.inPrompt).conFlush
  all_goals cases hflag

/-- An instruction other than BR that leaves the condition code alone carries any other one along. -/
theorem exec_setCond_of_no_flagReg {i : Instr} {s t : State} (hflag : flagReg i = none)
    (hbr : ∀ n z p off, i ≠ .br n z p off) (c : Cond) (h : exec i s = .next t) :
    exec i (s.setCond c) = .next (t.setCond c) := by
  cases i
  case br n z p off => exact absurd rfl (hbr n z p off)
  case sti sr off =>
    cases h
    simp only [exec, execSti, State.setCond_pc, State.memRead_setCond]
    rfl
  case trapPuts => exact putString_setCond (bytes := putsBytes) (s := s.link) c h
  case trapPutsp => exact putString_setCond (bytes := putspBytes) (s := s.link) c h
  case st | str | jmp | jsr | jsrr | rti | res | trapOut | trapHalt | trapUndef00 | trapUndef26 | trapUndef28
      | trapUndef30 | trapUndef40 | trapUndef80 =>
    cases h
    rfl
  all_goals cases hflag

/-! ### The rules over all instructions -/

/-- Settles O49, by the effects: only `jump` and `call` write `pc`. -/
theorem everyInstructionLeavesPcAsTheTableSays : Obligations.EveryInstructionLeavesPcAsTheTableSays := by
  intro i s t h
  cases exec_effect h with
  | jump | call => rfl
  | dest dr v hpc | store a v _ hpc => simp [hpc]
  | abort c hpc | undefinedTrap c hpc | print bs hpc => simp [hpc]
  | halt | getc | inEcho => rfl

/-- Settles O50, by the effects: the destination, the link, and x[0] of GETC and IN. -/
theorem onlyNamedRegistersAreWritten : Obligations.OnlyNamedRegistersAreWritten := by
  intro i s t h r hr
  cases exec_effect h with
  | jump | abort => rfl
  | store => simp
  | call hregs | undefinedTrap _ _ hregs | print _ _ hregs =>
    have h7 : 7 ≠ r := by simpa [hregs, eq_comm] using hr
    simp [h7]
  | dest dr _ _ hregs =>
    have hdr : dr ≠ r := by simpa [hregs, eq_comm] using hr
    simp [hdr]
  | halt =>
    have h7 : 7 ≠ r := by simpa [regsWritten, eq_comm] using hr
    simp [h7]
  | getc | inEcho =>
    obtain ⟨h0, h7⟩ : 0 ≠ r ∧ 7 ≠ r := by simpa [regsWritten, eq_comm] using hr
    simp [h0, h7]

/-- The first half of O51: the writers of the condition code. -/
theorem exec_cc {i : Instr} {s t : State} (h : exec i s = .next t) :
    match flagReg i with
    | some r => t.cc = condOf (t.reg r)
    | none => t.cc = s.cc := by
  cases exec_effect h with
  | jump _ hflag | call _ hflag => simp [hflag]
  | dest _ _ _ _ hflag | store _ _ _ _ _ hflag => simp [hflag]
  | abort _ _ _ hflag | undefinedTrap _ _ _ hflag | print _ _ _ hflag => simp [hflag]
  | halt => rfl
  | getc | inEcho => simp [flagReg]

/-- Settles O51: the effects give the writers; a writer overwrites the condition code it finds, and every other
instruction but BR carries it along. -/
theorem conditionCodeWritersAndReader : Obligations.ConditionCodeWritersAndReader := by
  refine ⟨fun i s t h => exec_cc h, fun i s t c hbr h => ?_⟩
  by_cases hflag : (flagReg i).isSome = true
  · rw [if_pos hflag]
    exact (exec_setCond_of_flagReg hflag s c).trans h
  · rw [if_neg hflag]
    exact exec_setCond_of_no_flagReg (by simpa using hflag) hbr c h

/-- Settles O52, by the effects: only HALT and the fatal conditions write `run`. -/
theorem runStateWriters : Obligations.RunStateWriters := by
  intro i s t h
  cases exec_effect h with
  | jump _ _ hrun | call _ _ hrun => simp [hrun]
  | dest _ _ _ _ _ hrun | store _ _ _ _ _ _ hrun => simp [hrun]
  | abort _ _ _ _ hrun | undefinedTrap _ _ _ _ hrun | print _ _ _ _ hrun => simp [hrun]
  | halt | getc | inEcho => rfl

/-- No instruction takes back output, and what is left of the input is its end. -/
theorem exec_streams {i : Instr} {s t : State} (h : exec i s = .next t) :
    s.output <+: t.output ∧ t.input <:+ s.input := by
  cases exec_effect h with
  | jump | call | abort | undefinedTrap => exact ⟨List.prefix_rfl, List.suffix_rfl⟩
  | dest | store => exact ⟨by simp, s.afterReads_input_suffix _⟩
  | print | halt => exact ⟨List.prefix_append .., List.suffix_rfl⟩
  | getc c rest hin => exact ⟨List.prefix_rfl, by simp [hin]⟩
  | inEcho c rest hin => exact ⟨by simp [List.append_assoc], by simp [hin]⟩

/-- Settles O54: the fetch may take a character and writes nothing, then the instruction moves both streams forward. -/
theorem streamsOnlyMoveForward : Obligations.StreamsOnlyMoveForward := by
  intro s t h
  obtain ⟨-, hexec⟩ := step_next h
  obtain ⟨⟨bs, hout⟩, hin⟩ := exec_streams hexec
  rw [State.fetch_state] at hout hin
  obtain ⟨cs, hcs⟩ := hin.trans (s.memRead_input_suffix s.pc)
  exact ⟨⟨bs, by simpa using hout.symm⟩, cs, hcs.symm⟩

/-! ### One register write, one flag update -/

/-- Settles O8, by the rules of `setReg`. -/
theorem registerWriteHasNoOtherEffect : Obligations.RegisterWriteHasNoOtherEffect := by
  intro s i v
  have hregs : RegsSameBut [i] s (s.setReg i v) := by
    intro r hr
    have hne : i ≠ r := by simpa [eq_comm] using hr
    simp [hne]
  exact ⟨by simp, rfl, hregs, rfl, rfl, rfl, ⟨rfl, rfl, rfl⟩, ⟨rfl, rfl⟩⟩

/-- Bit 15 of a Word is its sign: set from 0x8000 on. -/
theorem getElem_15_iff_le_toNat (v : Word) : v[15] = true ↔ 0x8000 ≤ v.toNat := by
  have hmsb : v[15] = v.msb := rfl
  simp [hmsb, BitVec.msb_eq_decide]

/-- Settles O9: the three ranges by zero and by bit 15. -/
theorem setccFollowsTheValue : Obligations.SetccFollowsTheValue := by
  intro s v
  refine ⟨fun h => ?_, fun ⟨hlo, hhi⟩ => ?_, fun h => ?_, rfl⟩
  · exact condOf_eq_zero.2 (BitVec.eq_of_toNat_eq h)
  · have hzero : v ≠ 0 := by
      rintro rfl
      exact absurd hlo (by decide)
    have hsign : ¬ v[15] = true := by
      rw [getElem_15_iff_le_toNat]
      omega
    exact condOf_eq_pos.2 ⟨hzero, by simpa using hsign⟩
  · exact condOf_eq_neg.2 ((getElem_15_iff_le_toNat v).2 h)

end Sys2Proof.Machine

/-! The memory interface (20_memory): which bytes change and who polls, and the invariant that every step keeps. -/

namespace Sys2Proof.Machine

/-! ### Reads in sequence: memory, input and the flush count -/

@[simp] theorem State.afterReads_flushed (s : State) (as : List Word) : (s.afterReads as).flushed = s.flushed :=
  State.afterReads_keeps State.memRead_flushed s as

theorem State.afterReads_wf {s : State} (h : s.mem.wf) (as : List Word) : (s.afterReads as).mem.wf := by
  induction as generalizing s with
  | nil => exact h
  | cons a as ih => exact ih (State.memRead_wf h a)

/-- Reads in sequence change nothing when none of them is at the status address (20_memory R41). -/
theorem State.afterReads_of_notMem {s : State} {as : List Word} (h : params.kbsrAddr ∉ as) : s.afterReads as = s := by
  induction as with
  | nil => rfl
  | cons a as ih =>
    obtain ⟨hne, hnot⟩ : params.kbsrAddr ≠ a ∧ params.kbsrAddr ∉ as := by simpa using h
    rw [State.afterReads, State.memRead_plain hne.symm]
    exact ih hnot

/-- Reads in sequence change no byte outside the two keyboard Words. -/
theorem State.afterReads_mem (s : State) (as : List Word) : MemSameButKeyboard s (s.afterReads as) := by
  induction as generalizing s with
  | nil => exact fun _ _ _ => rfl
  | cons a as ih => exact fun b hs hd => (ih _ b hs hd).trans (s.memRead_mem a b hs hd)

/-- A byte of a keyboard Word changes only where one of the reads is at the status address. -/
theorem State.afterReads_byte {s : State} {as : List Word} {b : Nat}
    (h : params.kbsrAddr ∈ as → b / 2 ≠ params.kbsrAddr.toNat ∧ b / 2 ≠ params.kbdrAddr.toNat) :
    (s.afterReads as).mem.byte b = s.mem.byte b := by
  by_cases hmem : params.kbsrAddr ∈ as
  · exact s.afterReads_mem as b (h hmem).1 (h hmem).2
  · rw [State.afterReads_of_notMem hmem]

/-! ### The invariant -/

theorem State.afterReads_inv {s : State} (h : s.Inv) (as : List Word) : (s.afterReads as).Inv :=
  ⟨State.afterReads_wf h.1 as, by simpa using h.2⟩

/-- The fetch keeps the invariant: it is a read, and a write of `pc`. -/
theorem State.fetch_inv {s : State} (h : s.Inv) : s.fetch.2.Inv := by
  rw [State.fetch_state]
  exact State.afterReads_inv h [s.pc]

/-- A flush makes visible exactly what was written, so it restores the second half of the invariant by itself. -/
theorem State.conFlush_inv {s : State} (h : s.mem.wf) : s.conFlush.Inv := ⟨h, le_rfl⟩

/-- Every instruction keeps the invariant: memory is written by reads and stores only, and output that is written is
flushed at once. -/
theorem exec_inv {i : Instr} {s t : State} (hs : s.Inv) (h : exec i s = .next t) : t.Inv := by
  cases exec_effect h with
  | jump | call | abort | undefinedTrap | getc => exact hs
  | dest dr v => exact State.afterReads_inv hs _
  | store a v =>
    obtain ⟨hwf, hflushed⟩ := State.afterReads_inv hs (readsOf s i)
    exact ⟨State.memWrite_wf hwf a v, hflushed⟩
  | print bs => exact State.conFlush_inv (s := s.link.conPut bs) hs.1
  | halt => exact State.conFlush_inv (s := s.link.conPut params.haltNotice) hs.1
  | inEcho c rest =>
    exact State.conFlush_inv (s := ((s.link.conPut params.inPrompt).conFlush.setInput rest).conPut [c]) hs.1

/-- Settles O56: the fetch keeps the invariant, then the instruction does. -/
theorem everyStepKeepsTheInvariant : Obligations.EveryStepKeepsTheInvariant :=
  fun _ _ hs h => exec_inv (State.fetch_inv hs) (step_next h).2

/-! ### Who writes memory and who polls -/

/-- A byte outside the stored Word, and outside the keyboard Words where a read is at the status address, is as it
was. -/
theorem exec_byte {i : Instr} {s t : State} (h : exec i s = .next t) {b : Nat}
    (hstore : ∀ a, storeOf s i = some a → b / 2 ≠ a.toNat)
    (hreads : params.kbsrAddr ∈ readsOf s i → b / 2 ≠ params.kbsrAddr.toNat ∧ b / 2 ≠ params.kbdrAddr.toNat) :
    t.mem.byte b = s.mem.byte b := by
  cases exec_effect h with
  | jump | call | abort | undefinedTrap | print | halt | getc | inEcho => rfl
  | dest => exact State.afterReads_byte hreads
  | store a v haddr =>
    exact (State.memWrite_memSameBut _ a v b (hstore a haddr)).trans (State.afterReads_byte hreads)

/-- Only GETC, IN and a read at the status address use the input. -/
theorem exec_inputSame {i : Instr} {s t : State} (h : exec i s = .next t) (hreads : params.kbsrAddr ∉ readsOf s i)
    (hgetc : i ≠ .trapGetc) (hin : i ≠ .trapIn) : InputSame s t := by
  cases exec_effect h with
  | jump | call | abort | undefinedTrap | print | halt => exact ⟨rfl, rfl, rfl⟩
  | dest | store =>
    rw [State.afterReads_of_notMem hreads]
    exact ⟨rfl, rfl, rfl⟩
  | getc => exact absurd rfl hgetc
  | inEcho => exact absurd rfl hin

/-- Settles O53, by the effects. -/
theorem memoryWritersAndPolls : Obligations.MemoryWritersAndPolls :=
  fun _ _ _ h => ⟨fun _ hstore hreads => exec_byte h hstore hreads, exec_inputSame h⟩

/-! ### The keyboard interception -/

@[simp] theorem zext8_toNat (c : Byte) : (zext8 c).toNat = c.toNat := by
  simp only [zext8, BitVec.toNat_setWidth]
  omega

/-- The answer of the poll is the environment's: no store changes it. -/
@[simp] theorem State.memWrite_kbdAvail (s : State) (a v : Word) : (s.memWrite a v).kbdAvail = s.kbdAvail := rfl

/-- The status Word after the interception: the poll's answer alone (20_memory R42). -/
theorem State.kbdIntercept_status (s : State) :
    s.kbdIntercept.mem.word params.kbsrAddr = if s.kbdAvail then 0x8000 else 0x0000 := by
  rcases s.kbdIntercept_cases with ⟨havail, c, rest, -, h⟩ | ⟨havail, h⟩
  · simp [h, havail, Memory.word_setWord_other kbsrAddr_ne_kbdrAddr]
  · simp [h, havail]

/-- With a character available the interception takes it and latches it in the data Word (20_memory R42). -/
theorem State.kbdIntercept_latches {s : State} (havail : s.kbdAvail = true) {c : Byte} {rest : List Byte}
    (hin : s.input = c :: rest) :
    s.kbdIntercept.input = rest ∧ s.kbdIntercept.mem.word params.kbdrAddr = zext8 c := by
  rcases s.kbdIntercept_cases with ⟨-, c', rest', hin', h⟩ | ⟨hnot, -⟩
  · obtain ⟨rfl, rfl⟩ := List.cons.inj (hin.symm.trans hin')
    simp [h]
  · simp [havail] at hnot

/-- With none available it leaves the input and the data Word alone (20_memory R42). -/
theorem State.kbdIntercept_leaves {s : State} (hnot : s.kbdAvail = false) :
    s.kbdIntercept.input = s.input ∧ s.kbdIntercept.mem.word params.kbdrAddr = s.mem.word params.kbdrAddr := by
  rcases s.kbdIntercept_cases with ⟨havail, -⟩ | ⟨-, h⟩
  · simp [hnot] at havail
  · simp [h, Memory.word_setWord_other kbsrAddr_ne_kbdrAddr.symm]

/-- Settles O11: the two answers of the poll, then the frame of the interception. -/
theorem keyboardPollLatchesOrClears : Obligations.KeyboardPollLatchesOrClears := by
  intro s
  obtain ⟨hx, hpc, hcc, hrun, hout, hflushed, -, -⟩ := s.kbdIntercept_frame
  have hregs : RegsSameBut [] s s.kbdIntercept := fun r _ => by simp [State.reg, hx]
  refine ⟨fun havail => ?_, fun hnot => ?_, s.kbdIntercept_mem, hregs, hpc, hcc, hrun, ⟨hout, hflushed⟩,
    kbsrAddr_ne_kbdrAddr⟩
  · obtain ⟨c, rest, hin⟩ := State.input_of_kbdAvail havail
    obtain ⟨hrest, hdata⟩ := State.kbdIntercept_latches havail hin
    exact ⟨c, rest, hin, hrest, by simp [State.kbdIntercept_status, havail], by rw [hdata, zext8_toNat]⟩
  · obtain ⟨hinput, hdata⟩ := State.kbdIntercept_leaves hnot
    exact ⟨hinput, by simp [State.kbdIntercept_status, hnot], hdata⟩

/-- Settles O10: the two cases of a read. -/
theorem onlyStatusReadsAreIntercepted : Obligations.OnlyStatusReadsAreIntercepted :=
  fun s => ⟨fun _ h => State.memRead_plain h, State.memRead_plain kbsrAddr_ne_kbdrAddr.symm, s.memRead_kbsr⟩

/-! ### Stores -/

/-- Nothing but the stored Word changes (20_memory R43). -/
theorem State.memWrite_onlyWord (s : State) (a v : Word) : OnlyWord a s (s.memWrite a v) :=
  ⟨fun _ _ => rfl, rfl, rfl, rfl, s.memWrite_memSameBut a v, ⟨rfl, rfl, rfl⟩, ⟨rfl, rfl⟩⟩

/-- Settles O12: the store's own rule, then the next interception, whose poll the store does not touch. -/
theorem storesAreUnconditional : Obligations.StoresAreUnconditional := by
  intro s a v
  refine ⟨Memory.word_setWord_same .., s.memWrite_onlyWord a v, ?_, fun havail => ?_, fun hnot => ?_⟩
  · simp only [State.memRead_kbsr]
    rw [State.kbdIntercept_status, State.kbdIntercept_status, State.memWrite_kbdAvail]
  · obtain ⟨c, rest, hin⟩ := State.input_of_kbdAvail havail
    have hlatched := State.kbdIntercept_latches (s := s.memWrite params.kbdrAddr v) havail hin
    rw [State.memRead_kbsr, State.memRead_kbsr, hlatched.2, (State.kbdIntercept_latches havail hin).2]
  · have hleft := State.kbdIntercept_leaves (s := s.memWrite params.kbdrAddr v) hnot
    rw [State.memRead_kbsr, hleft.2, State.memWrite_mem, Memory.word_setWord_same]

/-! ### The fetch from the status address, and from a Word just stored -/

/-- A step of a running engine is the fetch, then the fetched instruction (40 R90). -/
theorem step_of_running {s : State} (h : s.run = .running) : step s = exec (decode s.fetch.1) s.fetch.2 := by
  simp [step, stopOf, h]

/-- BR with no bit set is never taken (30_encoding R79). -/
theorem exec_br_no_bits (off : BitVec 9) (s : State) : exec (.br false false false off) s = .next s := by
  have hnot : ¬ branchTaken false false false s.cc = true := by simp [branchTaken_iff]
  simp [exec, execBr, hnot]

theorem State.setRun_of_run {s : State} {r : RunState} (h : s.run = r) : s.setRun r = s := by
  subst h
  rfl

/-- At the status address the engine fetches the status Word it has just polled: 0x8000 is RTI, 0x0000 is a BR with no
bit set (20_memory R50). -/
theorem step_at_kbsrAddr {s : State} (hrun : s.run = .running) (hpc : s.pc = params.kbsrAddr) :
    step s = .next ((s.kbdIntercept.setPc (s.pc + 1)).setRun
      (if s.kbdAvail then .aborted .rtiUnimplemented else .running)) := by
  have hrti : decode 0x8000 = .rti := by decide
  have hnop : decode 0x0000 = .br false false false 0 := by decide
  have hfetch : s.fetch = (if s.kbdAvail then 0x8000 else 0x0000, s.kbdIntercept.setPc (s.pc + 1)) := by
    refine Prod.ext ?_ ?_
    · rw [State.fetch_word, hpc, State.memRead_kbsr, State.kbdIntercept_status]
    · rw [State.fetch_state, hpc, State.memRead_kbsr]
  rw [step_of_running hrun, hfetch]
  cases s.kbdAvail with
  | true =>
    rw [if_pos rfl, if_pos rfl, hrti]
    rfl
  | false =>
    rw [if_neg Bool.false_ne_true, if_neg Bool.false_ne_true, hnop, exec_br_no_bits, State.setRun_of_run]
    simp [s.kbdIntercept_frame, hrun]

/-- Settles O16, by the step at the status address and the frame of the interception. -/
theorem fetchFromStatusAddressPolls : Obligations.FetchFromStatusAddressPolls := by
  intro s hrun hpc
  obtain ⟨hx, -, hcc, -, hout, hflushed, -, -⟩ := s.kbdIntercept_frame
  refine ⟨_, step_at_kbsrAddr hrun hpc, rfl, fun r _ => ?_, hcc, ⟨hout, hflushed⟩, ⟨rfl, rfl, rfl, rfl⟩,
    fun havail => ?_, fun hnot => ?_⟩
  · simp [State.reg, hx]
  · simp [havail]
  · simp [hnot]

/-- A PC-relative address with offset 0 is the incremented `pc` itself (30_encoding R72). -/
@[simp] theorem pcRel9_zero (pc : Word) : pcRel9 pc 0#9 = pc := by
  simp [pcRel9, sext]

/-- Settles O37: ST with offset 0 stores at the very `pc` of the next fetch, which reads the Word back. -/
theorem storedWordIsFetchedNext : Obligations.StoredWordIsFetchedNext := by
  intro sr s hrun hpc
  refine ⟨s.memWrite s.pc (s.reg sr), by simp [exec, execSt], ?_⟩
  have hfetch := State.fetch_plain (s := s.memWrite s.pc (s.reg sr)) hpc
  rw [step_of_running (s := s.memWrite s.pc (s.reg sr)) hrun, hfetch, State.memWrite_mem, State.memWrite_pc,
    Memory.word_setWord_same]

end Sys2Proof.Machine

/-! The encoding (30_encoding): the fields of each format, the decoder and the encoder each against the other, the rows
of the decode table, the bits no field covers; then sign extension and the address sums. -/

namespace Sys2Proof
open Machine

/-! ### What the decoder reads in the Word of each format (30_encoding R63) -/

/-- A field of a Word, bit by bit. -/
theorem extractLsb'_eq_of_bits {n lo : Nat} {w : Word} {v : BitVec n}
    (h : ∀ i < n, w.getLsbD (lo + i) = v.getLsbD i) : w.extractLsb' lo n = v := by
  refine BitVec.eq_of_getLsbD_eq fun i hi => ?_
  simp [hi, h]

/-- A register field, bit by bit. -/
theorem regField_eq_of_bits {lo : Nat} {w : Word} {r : Reg}
    (h : ∀ i < 3, w.getLsbD (lo + i) = (regBits r).getLsbD i) : regField w lo = r := by
  rw [regField, extractLsb'_eq_of_bits h, toFin_regBits]

/-- Format PC9. -/
@[simp] theorem fields_encodePc9 (op : Opcode) (top : BitVec 3) (off : BitVec 9) :
    (encodePc9 op top off).extractLsb' 12 4 = params.opcodeMap op ∧
    regField (encodePc9 op top off) 9 = top.toFin ∧
    (encodePc9 op top off).extractLsb' 0 9 = off := by
  refine ⟨extractLsb'_eq_of_bits fun i hi => ?_, regField_eq_of_bits fun i hi => ?_,
    extractLsb'_eq_of_bits fun i hi => ?_⟩ <;> rw [getLsbD_encodePc9] <;> interval_cases i <;> rfl

/-- The three condition bits of BR, in format PC9. -/
@[simp] theorem condBits_encodePc9 (op : Opcode) (n z p : Bool) (off : BitVec 9) :
    (encodePc9 op (BitVec.ofBool n ++ BitVec.ofBool z ++ BitVec.ofBool p) off)[11] = n ∧
    (encodePc9 op (BitVec.ofBool n ++ BitVec.ofBool z ++ BitVec.ofBool p) off)[10] = z ∧
    (encodePc9 op (BitVec.ofBool n ++ BitVec.ofBool z ++ BitVec.ofBool p) off)[9] = p := by
  simp only [← BitVec.getLsbD_eq_getElem, getLsbD_encodePc9, BitVec.getLsbD_append, BitVec.getLsbD_ofBool]
  simp

/-- Format OPR: bit 5 is clear. -/
@[simp] theorem fields_encodeOpr (op : Opcode) (dr sr1 sr2 : Reg) :
    (encodeOpr op dr sr1 sr2).extractLsb' 12 4 = params.opcodeMap op ∧
    regField (encodeOpr op dr sr1 sr2) 9 = dr ∧ regField (encodeOpr op dr sr1 sr2) 6 = sr1 ∧
    (encodeOpr op dr sr1 sr2)[5] = false ∧ regField (encodeOpr op dr sr1 sr2) 0 = sr2 := by
  refine ⟨extractLsb'_eq_of_bits fun i hi => ?_, regField_eq_of_bits fun i hi => ?_,
    regField_eq_of_bits fun i hi => ?_, getLsbD_encodeOpr op dr sr1 sr2 5,
    regField_eq_of_bits fun i hi => ?_⟩ <;> rw [getLsbD_encodeOpr] <;> interval_cases i <;> rfl

/-- Format OPI: bit 5 is set. -/
@[simp] theorem fields_encodeOpi (op : Opcode) (dr sr1 : Reg) (imm : BitVec 5) :
    (encodeOpi op dr sr1 imm).extractLsb' 12 4 = params.opcodeMap op ∧
    regField (encodeOpi op dr sr1 imm) 9 = dr ∧ regField (encodeOpi op dr sr1 imm) 6 = sr1 ∧
    (encodeOpi op dr sr1 imm)[5] = true ∧ (encodeOpi op dr sr1 imm).extractLsb' 0 5 = imm := by
  refine ⟨extractLsb'_eq_of_bits fun i hi => ?_, regField_eq_of_bits fun i hi => ?_,
    regField_eq_of_bits fun i hi => ?_, getLsbD_encodeOpi op dr sr1 imm 5,
    extractLsb'_eq_of_bits fun i hi => ?_⟩ <;> rw [getLsbD_encodeOpi] <;> interval_cases i <;> rfl

/-- Formats BASE6, BASE and NOT. -/
@[simp] theorem fields_encodeBase6 (op : Opcode) (top base : Reg) (low : BitVec 6) :
    (encodeBase6 op top base low).extractLsb' 12 4 = params.opcodeMap op ∧
    regField (encodeBase6 op top base low) 9 = top ∧ regField (encodeBase6 op top base low) 6 = base ∧
    (encodeBase6 op top base low).extractLsb' 0 6 = low := by
  refine ⟨extractLsb'_eq_of_bits fun i hi => ?_, regField_eq_of_bits fun i hi => ?_,
    regField_eq_of_bits fun i hi => ?_, extractLsb'_eq_of_bits fun i hi => ?_⟩ <;>
    rw [getLsbD_encodeBase6] <;> interval_cases i <;> rfl

/-- Bit 11 of JSRR is clear, by which the decoder tells it from JSR. -/
@[simp] theorem modeBit_encodeBase6_zero (op : Opcode) (base : Reg) (low : BitVec 6) :
    (encodeBase6 op 0 base low)[11] = false := getLsbD_encodeBase6 op 0 base low 11

/-- Format PC11: bit 11 is set. -/
@[simp] theorem fields_encodePc11 (off : BitVec 11) :
    (encodePc11 off).extractLsb' 12 4 = params.opcodeMap .jsr ∧ (encodePc11 off)[11] = true ∧
    (encodePc11 off).extractLsb' 0 11 = off := by
  refine ⟨extractLsb'_eq_of_bits fun i hi => ?_, getLsbD_encodePc11 off 11,
    extractLsb'_eq_of_bits fun i hi => ?_⟩ <;> rw [getLsbD_encodePc11] <;> interval_cases i <;> rfl

/-- Format NONE. -/
@[simp] theorem opcode_encodeNone (op : Opcode) : (encodeNone op).extractLsb' 12 4 = params.opcodeMap op := by
  refine extractLsb'_eq_of_bits fun i hi => ?_
  rw [getLsbD_encodeNone]
  interval_cases i <;> rfl

/-- Format TRAP. -/
@[simp] theorem fields_encodeTrap (v : BitVec 8) :
    (encodeTrap v).extractLsb' 12 4 = params.opcodeMap .trap ∧ (encodeTrap v).extractLsb' 0 8 = v := by
  refine ⟨extractLsb'_eq_of_bits fun i hi => ?_, extractLsb'_eq_of_bits fun i hi => ?_⟩ <;>
    rw [getLsbD_encodeTrap] <;> interval_cases i <;> rfl

/-! ### The trap vectors -/

/-- A Word in format TRAP is decoded by its vector alone. -/
theorem decode_encodeTrap (v : BitVec 8) : decode (encodeTrap v) = decodeTrap v := by
  simp only [decode, fields_encodeTrap, opcodeOf_opcodeMap]

/-- A defined vector decodes to its service (30_encoding R75). -/
theorem decodeTrap_trapMap :
    decodeTrap (params.trapMap .getc) = .trapGetc ∧ decodeTrap (params.trapMap .out) = .trapOut ∧
    decodeTrap (params.trapMap .puts) = .trapPuts ∧ decodeTrap (params.trapMap .in) = .trapIn ∧
    decodeTrap (params.trapMap .putsp) = .trapPutsp ∧ decodeTrap (params.trapMap .halt) = .trapHalt := by
  decide

/-- A vector in the range of an undefined row decodes to that row (30_encoding R76). -/
theorem decodeTrap_of_wellFormed : ∀ v : BitVec 8,
    ((Instr.trapUndef00 v).wellFormed = true → decodeTrap v = .trapUndef00 v) ∧
    ((Instr.trapUndef26 v).wellFormed = true → decodeTrap v = .trapUndef26 v) ∧
    ((Instr.trapUndef28 v).wellFormed = true → decodeTrap v = .trapUndef28 v) ∧
    ((Instr.trapUndef30 v).wellFormed = true → decodeTrap v = .trapUndef30 v) ∧
    ((Instr.trapUndef40 v).wellFormed = true → decodeTrap v = .trapUndef40 v) ∧
    ((Instr.trapUndef80 v).wellFormed = true → decodeTrap v = .trapUndef80 v) := by
  decide

/-- The undefined rows cover every vector the six services leave (30_encoding R76). -/
theorem wellFormed_decodeTrap : ∀ v : BitVec 8, (decodeTrap v).wellFormed = true := by
  decide

theorem encode_decodeTrap : ∀ v : BitVec 8, encode (decodeTrap v) = encodeTrap v := by
  decide

/-- Whatever the vector, bits 11:8 are no field (30_encoding R77). -/
theorem uncoveredBits_decodeTrap : ∀ v : BitVec 8, uncoveredBits (decodeTrap v) = 0x0F00 := by
  decide

/-! ### Decoding what was encoded -/

/-- Settles O3: the decoder reads back the opcode and every field of the instruction's format, and a trap vector leads
to the row whose range holds it. -/
theorem decodeOfEncodeIsTheInstruction : Obligations.DecodeOfEncodeIsTheInstruction := by
  intro i hwf
  cases i
  case trapUndef00 v | trapUndef26 v | trapUndef28 v | trapUndef30 v | trapUndef40 v | trapUndef80 v =>
    obtain ⟨h00, h26, h28, h30, h40, h80⟩ := decodeTrap_of_wellFormed v
    simp only [encode, decode_encodeTrap, *]
  case trapGetc | trapOut | trapPuts | trapIn | trapPutsp | trapHalt =>
    simp only [encode, decode_encodeTrap, decodeTrap_trapMap]
  all_goals
    simp only [encode, decode]
    simp

/-! ### Words that agree outside some bits -/

/-- Agreement outside the bits `u`, bit by bit. -/
theorem agree_iff {u v w : Word} :
    v &&& ~~~u = w &&& ~~~u ↔ ∀ i < 16, u.getLsbD i = false → v.getLsbD i = w.getLsbD i := by
  refine ⟨fun h i hi hu => ?_, fun h => Laws.RowBits.word_eq fun i hi => ?_⟩
  · have hnot : (~~~u).getLsbD i = true := by rw [BitVec.getLsbD_not, hu, decide_eq_true hi]; rfl
    rw [getLsbD_of_masked h hnot, BitVec.getLsbD_and, hnot, Bool.and_true]
  · cases hu : u.getLsbD i with
    | true => simp [hu]
    | false => simp [hu, h i hi hu]

/-- Words that agree outside `u` agree under a mask that keeps no bit of `u`. -/
theorem masked_of_agree {u m v w : Word} (hm : m &&& u = 0#16) (h : v &&& ~~~u = w &&& ~~~u) :
    v &&& m = w &&& m := by
  refine Laws.RowBits.word_eq fun i hi => ?_
  rw [BitVec.getLsbD_and, BitVec.getLsbD_and]
  cases hu : u.getLsbD i with
  | true => rw [getLsbD_of_masked hm hu, BitVec.getLsbD_zero, Bool.and_false, Bool.and_false]
  | false => rw [agree_iff.1 h i hi hu]

/-- Words that agree outside `u` and on `u` are equal. -/
theorem eq_of_agree {u v w : Word} (hout : v &&& ~~~u = w &&& ~~~u) (hin : v &&& u = w &&& u) : v = w := by
  refine Laws.RowBits.word_eq fun i hi => ?_
  cases hu : u.getLsbD i with
  | true => rw [getLsbD_of_masked hin hu, BitVec.getLsbD_and, hu, Bool.and_true]
  | false => exact agree_iff.1 hout i hi hu

/-! ### Encoding the fields of a Word -/

@[simp] theorem regBits_regField (w : Word) (lo : Nat) : regBits (regField w lo) = w.extractLsb' lo 3 := rfl

/-- The three condition bits of BR are the field above PCoffset9. -/
theorem condBits_eq_field (w : Word) :
    BitVec.ofBool w[11] ++ BitVec.ofBool w[10] ++ BitVec.ofBool w[9] = w.extractLsb' 9 3 := by
  refine BitVec.eq_of_getLsbD_eq fun i hi => ?_
  rw [BitVec.getLsbD_append, BitVec.getLsbD_append]
  interval_cases i <;> simp

section Fields
variable {w : Word} {op : Opcode} (hop : params.opcodeMap op = w.extractLsb' 12 4)
include hop

theorem encodePc9_fields : encodePc9 op (w.extractLsb' 9 3) (w.extractLsb' 0 9) = w := by
  refine Laws.RowBits.word_eq fun i hi => ?_
  rw [getLsbD_encodePc9, hop]
  interval_cases i <;> simp

theorem encodeOpr_fields (hmode : w[5] = false) :
    encodeOpr op (regField w 9) (regField w 6) (regField w 0) &&& ~~~0x0018 = w &&& ~~~0x0018 := by
  refine agree_iff.2 fun i hi hu => ?_
  rw [getLsbD_encodeOpr, hop]
  interval_cases i <;> simp [hmode] at hu ⊢

theorem encodeOpi_fields (hmode : w[5] = true) :
    encodeOpi op (regField w 9) (regField w 6) (w.extractLsb' 0 5) = w := by
  refine Laws.RowBits.word_eq fun i hi => ?_
  rw [getLsbD_encodeOpi, hop]
  interval_cases i <;> simp [hmode]

/-- LDR and STR. -/
theorem encodeBase6_fields : encodeBase6 op (regField w 9) (regField w 6) (w.extractLsb' 0 6) = w := by
  refine Laws.RowBits.word_eq fun i hi => ?_
  rw [getLsbD_encodeBase6, hop]
  interval_cases i <;> simp

/-- NOT: bits 5:0 are no field. -/
theorem encodeBase6_top_base (low : BitVec 6) :
    encodeBase6 op (regField w 9) (regField w 6) low &&& ~~~0x003F = w &&& ~~~0x003F := by
  refine agree_iff.2 fun i hi hu => ?_
  rw [getLsbD_encodeBase6, hop]
  interval_cases i <;> simp at hu ⊢

/-- JMP: bits 11:9 and 5:0 are no field. -/
theorem encodeBase6_base (top : Reg) (low : BitVec 6) :
    encodeBase6 op top (regField w 6) low &&& ~~~0x0E3F = w &&& ~~~0x0E3F := by
  refine agree_iff.2 fun i hi hu => ?_
  rw [getLsbD_encodeBase6, hop]
  interval_cases i <;> simp at hu ⊢

/-- JSRR: as JMP, but bit 11 is clear. -/
theorem encodeBase6_base_of_modeBit (hmode : w[11] = false) (low : BitVec 6) :
    encodeBase6 op 0 (regField w 6) low &&& ~~~0x063F = w &&& ~~~0x063F := by
  refine agree_iff.2 fun i hi hu => ?_
  rw [getLsbD_encodeBase6, hop]
  have hzero : regBits 0 = 0#3 := rfl
  interval_cases i <;> simp [hmode, hzero] at hu ⊢

theorem encodeNone_agree : encodeNone op &&& ~~~0x0FFF = w &&& ~~~0x0FFF := by
  refine agree_iff.2 fun i hi hu => ?_
  rw [getLsbD_encodeNone, hop]
  interval_cases i <;> simp at hu ⊢

end Fields

theorem encodePc11_fields {w : Word} (hop : params.opcodeMap .jsr = w.extractLsb' 12 4) (hmode : w[11] = true) :
    encodePc11 (w.extractLsb' 0 11) = w := by
  refine Laws.RowBits.word_eq fun i hi => ?_
  rw [getLsbD_encodePc11, hop]
  interval_cases i <;> simp [hmode]

theorem encodeTrap_fields {w : Word} (hop : params.opcodeMap .trap = w.extractLsb' 12 4) :
    encodeTrap (w.extractLsb' 0 8) &&& ~~~0x0F00 = w &&& ~~~0x0F00 := by
  refine agree_iff.2 fun i hi hu => ?_
  rw [getLsbD_encodeTrap, hop]
  interval_cases i <;> simp at hu ⊢

/-! ### Encoding what was decoded -/

/-- Only the vector of an undefined TRAP has a check, and the decoder has made it. -/
theorem decode_wellFormed (w : Word) : (decode w).wellFormed = true := by
  cases hop : opcodeOf (w.extractLsb' 12 4) <;> simp only [decode, hop]
  case add | and | jsr => split <;> rfl
  case trap => exact wellFormed_decodeTrap _
  all_goals rfl

/-- No bit that a field or the opcode covers is lost (30_encoding R62, R77). -/
theorem encode_decode_agree (w : Word) :
    encode (decode w) &&& ~~~uncoveredBits (decode w) = w &&& ~~~uncoveredBits (decode w) := by
  have hnum := opcodeMap_opcodeOf (w.extractLsb' 12 4)
  cases hop : opcodeOf (w.extractLsb' 12 4) <;> rw [hop] at hnum <;> simp only [decode, hop]
  case br => rw [encode, condBits_eq_field, encodePc9_fields hnum]
  case ld | st | ldi | sti | lea => rw [encode, regBits_regField, encodePc9_fields hnum]
  case add | and =>
    cases hmode : w[5] with
    | false => exact encodeOpr_fields hnum hmode
    | true => rw [if_pos rfl, encode, encodeOpi_fields hnum hmode]
  case jsr =>
    cases hmode : w[11] with
    | false => exact encodeBase6_base_of_modeBit hnum hmode 0
    | true => rw [if_pos rfl, encode, encodePc11_fields hnum hmode]
  case ldr | str => rw [encode, encodeBase6_fields hnum]
  case rti | res => exact encodeNone_agree hnum
  case not => exact encodeBase6_top_base hnum _
  case jmp => exact encodeBase6_base hnum 0 0
  case trap =>
    rw [encode_decodeTrap, uncoveredBits_decodeTrap]
    exact encodeTrap_fields hnum

/-- Settles O4, by the opcode and the mode bit of the Word. -/
theorem decodeLosesNoCoveredBit : Obligations.DecodeLosesNoCoveredBit :=
  fun w => ⟨decode_wellFormed w, encode_decode_agree w⟩

/-! ### The rows of the table (30_encoding R76) -/

/-- The bits that no field of the row's format covers (30_encoding R77), read off the row. -/
def DecodeRow.uncovered (r : DecodeRow) : Word :=
  if r.pattern = 0x1000 ∨ r.pattern = 0x5000 then 0x0018
  else if r.pattern = 0x4000 then 0x063F
  else if r.pattern = 0x8000 ∨ r.pattern = 0xD000 then 0x0FFF
  else if r.pattern = 0x9000 then 0x003F
  else if r.pattern = 0xC000 then 0x0E3F
  else if 0xF000 ≤ r.pattern then 0x0F00
  else 0

/-- The conventional value of the row's uncovered bits (30_encoding R77): ones for NOT, zeros elsewhere. -/
def DecodeRow.conventional (r : DecodeRow) : Word := if r.pattern = 0x9000 then 0x003F else 0

/-- Which bits are uncovered depends on the row only. -/
theorem uncoveredBits_eq (i : Instr) : uncoveredBits i = (rowOf i).uncovered := by
  cases i <;> simp [rowOf, DecodeRow.uncovered, uncoveredBits]

theorem rowOf_mem_decodeRows (i : Instr) : rowOf i ∈ decodeRows := by
  cases i <;> simp [rowOf, decodeRows]

theorem decodeRows_nodup : decodeRows.Nodup := by
  decide

/-- Different rows differ in a bit that both masks keep. -/
theorem decodeRows_eq_of_compatible : ∀ r ∈ decodeRows, ∀ r' ∈ decodeRows,
    r.pattern &&& r'.mask = r'.pattern &&& r.mask → r = r' := by
  decide

/-- A row's mask keeps covered bits only. -/
theorem mask_and_uncovered : ∀ r ∈ decodeRows, r.mask &&& r.uncovered = 0 := by
  decide

theorem rowMatches_iff {r : DecodeRow} {w : Word} : rowMatches r w = true ↔ w &&& r.mask = r.pattern := by
  simp [rowMatches]

/-- No Word belongs to two rows. -/
theorem row_unique {r r' : DecodeRow} {w : Word} (hr : r ∈ decodeRows) (hr' : r' ∈ decodeRows)
    (h : rowMatches r w = true) (h' : rowMatches r' w = true) : r = r' := by
  refine decodeRows_eq_of_compatible r hr r' hr' ?_
  rw [← rowMatches_iff.1 h, ← rowMatches_iff.1 h', BitVec.and_assoc, BitVec.and_assoc, BitVec.and_comm r.mask]

/-- Whether a Word belongs to an instruction's row does not depend on the uncovered bits. -/
theorem rowMatches_of_agree {i : Instr} {v w : Word} (h : v &&& ~~~uncoveredBits i = w &&& ~~~uncoveredBits i) :
    rowMatches (rowOf i) v = rowMatches (rowOf i) w := by
  have hm : (rowOf i).mask &&& uncoveredBits i = 0 := by
    rw [uncoveredBits_eq]
    exact mask_and_uncovered _ (rowOf_mem_decodeRows i)
  rw [rowMatches, rowMatches, masked_of_agree hm h]

/-- A Word belongs to the row of the instruction it decodes to, because the re-encoded Word does. -/
theorem rowMatches_rowOf_decode (w : Word) : rowMatches (rowOf (decode w)) w = true := by
  rw [← rowMatches_of_agree (encode_decode_agree w)]
  exact rowMatches_iff.2 (Laws.RowBits.all _ (decode_wellFormed w))

/-- Settles O2: the Word belongs to the row of its instruction, and to no other. -/
theorem everyWordMatchesExactlyItsRow : Obligations.EveryWordMatchesExactlyItsRow := by
  intro w
  have hmem := rowOf_mem_decodeRows (decode w)
  have hiff : ∀ r ∈ decodeRows, rowMatches r w = decide (r = rowOf (decode w)) := by
    intro r hr
    rw [Bool.eq_iff_iff, decide_eq_true_iff]
    refine ⟨fun h => row_unique hr hmem h (rowMatches_rowOf_decode w), ?_⟩
    rintro rfl
    exact rowMatches_rowOf_decode w
  rw [List.filter_congr hiff, List.filter_eq, List.count_eq_one_of_mem decodeRows_nodup hmem, List.replicate_one]

/-! ### The bits no field covers (30_encoding R77) -/

theorem encodeOpr_uncovered (op : Opcode) (dr sr1 sr2 : Reg) : encodeOpr op dr sr1 sr2 &&& 0x0018 = 0 := by
  refine Laws.RowBits.word_eq fun i hi => ?_
  rw [BitVec.getLsbD_and, getLsbD_encodeOpr]
  interval_cases i <;> simp

theorem encodeBase6_low (op : Opcode) (top base : Reg) (low : BitVec 6) :
    encodeBase6 op top base low &&& 0x003F = low.setWidth 16 := by
  refine Laws.RowBits.word_eq fun i hi => ?_
  rw [BitVec.getLsbD_and, getLsbD_encodeBase6]
  interval_cases i <;> simp

theorem encodeNone_uncovered (op : Opcode) : encodeNone op &&& 0x0FFF = 0 := by
  refine Laws.RowBits.word_eq fun i hi => ?_
  rw [BitVec.getLsbD_and, getLsbD_encodeNone]
  interval_cases i <;> simp

theorem encodeTrap_uncovered (v : BitVec 8) : encodeTrap v &&& 0x0F00 = 0 := by
  refine Laws.RowBits.word_eq fun i hi => ?_
  rw [BitVec.getLsbD_and, getLsbD_encodeTrap]
  interval_cases i <;> simp

/-- The encoder puts the conventional value in the uncovered bits. -/
theorem encode_and_uncoveredBits (i : Instr) : encode i &&& uncoveredBits i = (rowOf i).conventional := by
  cases i
  case add | and => exact encodeOpr_uncovered ..
  case jsrr base | jmp base =>
    revert base
    decide
  case rti | res => exact encodeNone_uncovered _
  case not => exact encodeBase6_low ..
  case trapGetc | trapOut | trapPuts | trapIn | trapPutsp | trapHalt => exact encodeTrap_uncovered _
  case trapUndef00 | trapUndef26 | trapUndef28 | trapUndef30 | trapUndef40 | trapUndef80 => exact encodeTrap_uncovered _
  all_goals exact BitVec.and_zero

/-- The decoder looks at covered bits only. Both Words belong to one row, so the two instructions encode with the same
uncovered bits, and with the Words' common covered bits: to one Word, which decodes to both. -/
theorem decode_eq_of_agree {w w' : Word}
    (h : w' &&& ~~~uncoveredBits (decode w) = w &&& ~~~uncoveredBits (decode w)) : decode w' = decode w := by
  have hrow : rowOf (decode w') = rowOf (decode w) :=
    row_unique (rowOf_mem_decodeRows _) (rowOf_mem_decodeRows _) (rowMatches_rowOf_decode w')
      ((rowMatches_of_agree h).trans (rowMatches_rowOf_decode w))
  have hbits : uncoveredBits (decode w') = uncoveredBits (decode w) := by
    rw [uncoveredBits_eq, uncoveredBits_eq, hrow]
  have hcovered : encode (decode w') &&& ~~~uncoveredBits (decode w) =
      encode (decode w) &&& ~~~uncoveredBits (decode w) := by
    rw [encode_decode_agree w, ← h, ← hbits, encode_decode_agree w']
  have huncovered : encode (decode w') &&& uncoveredBits (decode w) =
      encode (decode w) &&& uncoveredBits (decode w) := by
    rw [encode_and_uncoveredBits (decode w), ← hrow, ← encode_and_uncoveredBits (decode w'), hbits]
  calc decode w'
      = decode (encode (decode w')) := (decodeOfEncodeIsTheInstruction _ (decode_wellFormed w')).symm
    _ = decode (encode (decode w)) := by rw [eq_of_agree hcovered huncovered]
    _ = decode w := decodeOfEncodeIsTheInstruction _ (decode_wellFormed w)

/-- Settles O5: the decoder looks at covered bits only, and the encoder's uncovered bits are the row's. -/
theorem uncoveredBitsAreIgnored : Obligations.UncoveredBitsAreIgnored := by
  refine ⟨fun w v => decode_eq_of_agree ?_, fun dr sr1 => encode_and_uncoveredBits (.not dr sr1), fun i hnot => ?_⟩
  · ext i
    cases hu : (uncoveredBits (decode w))[i] <;> simp [hu]
  · rw [encode_and_uncoveredBits]
    cases i
    case not dr sr1 => exact absurd rfl (hnot dr sr1)
    all_goals rfl

/-- Settles O1, by evaluating the decoder. -/
theorem sampleWordsDecodeAsTheSpecSays : Obligations.SampleWordsDecodeAsTheSpecSays := by
  unfold Obligations.SampleWordsDecodeAsTheSpecSays
  decide

end Sys2Proof

/-! The operand forms (30_encoding R70, R72): sign extension and the address sums. -/

namespace Sys2Proof.Machine

theorem sext_toInt {n : Nat} (v : BitVec n) (hn : n ≤ 16) : (sext v).toInt = v.toInt :=
  BitVec.toInt_signExtend_of_le hn

/-- The form of R70: ones above the field when its sign bit is set, zeros otherwise. -/
theorem sext_eq {n : Nat} (v : BitVec n) :
    sext v = if v.msb then (0xFFFF#16 <<< n) ||| v.setWidth 16 else v.setWidth 16 := by
  refine Laws.RowBits.word_eq fun i hi => ?_
  rw [sext, BitVec.getLsbD_signExtend]
  rcases Nat.lt_or_ge i n with hin | hin
  · cases v.msb <;> simp [hi, hin]
  · have hones : (0xFFFF#16).getLsbD (i - n) = true := by
      rw [show 0xFFFF#16 = BitVec.allOnes 16 from rfl, BitVec.getLsbD_allOnes, decide_eq_true_iff]
      omega
    cases v.msb <;> simp [hi, Nat.not_lt.2 hin, hones, BitVec.getLsbD_of_ge v i hin]

/-- Settles O6: the rule's form by the sign bit of the field, and the library's range of an `n`-bit integer. -/
theorem signExtensionReplicatesTheSignBit : Obligations.SignExtensionReplicatesTheSignBit := by
  refine ⟨fun n v hlo hhi => ?_, fun n v => sext_toInt v, fun n v hlo hhi => ?_, by decide⟩
  · have hmsb : (v.setWidth n).msb = v.getLsbD (n - 1) := by
      rw [BitVec.msb_eq_getLsbD_last, BitVec.getLsbD_setWidth, decide_eq_true (by omega), Bool.true_and]
    rw [sext_eq, hmsb]
  · rw [sext_toInt v hhi]
    exact ⟨v.le_toInt, v.toInt_lt⟩

/-- A sign-extended offset adds its signed value, modulo 2^16 (30_encoding R72, D17). -/
theorem add_sext_toNat {n : Nat} (base : Word) (off : BitVec n) (hn : n ≤ 16) :
    ((base + sext off).toNat : Int) = (base.toNat + off.toInt) % 65536 := by
  have hsigned := sext_toInt off hn
  rw [BitVec.toInt_eq_toNat_cond] at hsigned
  rw [BitVec.toNat_add, ← hsigned]
  split <;> push_cast <;> omega

/-- Settles O7: each address is its base plus a sign-extended offset. -/
theorem addressSumsWrapModulo : Obligations.AddressSumsWrapModulo :=
  ⟨fun pc off => add_sext_toNat pc off (by decide), fun pc off => add_sext_toNat pc off (by decide),
    fun base off => add_sext_toNat base off (by decide)⟩

end Sys2Proof.Machine

/-! The cycle (40_execution_cycle): what a step is while the engine runs and once it has stopped, which instructions can
stop and why, and that a step which takes nothing from the environment does the same under any other. -/

namespace Sys2Proof.Machine

/-! ### The polls a read makes -/

/-- A read polls once at the status address and nowhere else (20_memory R41, R42). -/
theorem State.memRead_polls (s : State) (a : Word) :
    (s.memRead a).2.polls = s.polls + if a = params.kbsrAddr then 1 else 0 := by
  rcases s.memRead_cases a with ⟨hne, h⟩ | ⟨heq, h⟩
  · simp [h, hne]
  · simp [h, if_pos heq, s.kbdIntercept_frame]

theorem State.polls_le_memRead (s : State) (a : Word) : s.polls ≤ (s.memRead a).2.polls := by
  simp [State.memRead_polls]

theorem State.polls_le_afterReads (s : State) (as : List Word) : s.polls ≤ (s.afterReads as).polls := by
  induction as generalizing s with
  | nil => exact le_rfl
  | cons a as ih => exact (s.polls_le_memRead a).trans (ih _)

/-- No instruction takes back a poll. -/
theorem exec_polls_le {i : Instr} {s t : State} (h : exec i s = .next t) : s.polls ≤ t.polls := by
  cases exec_effect h with
  | jump | call | abort | undefinedTrap | print | halt | getc | inEcho => exact le_rfl
  | dest | store => exact s.polls_le_afterReads _

/-! ### The environment as an operand -/

/-- What the environment holds of the state: the characters to come, the answers to the next polls, and the index of
the free answers after those (10_state R35, 20_memory R51; log 4). -/
structure Env where
  input : List Byte
  answers : List Bool
  polls : Nat

/-- The state under another environment. -/
def State.withEnv (s : State) (e : Env) : State :=
  { s with input := e.input, answers := e.answers, polls := e.polls }

@[simp] theorem State.withEnv_pc (s : State) (e : Env) : (s.withEnv e).pc = s.pc := rfl
@[simp] theorem State.withEnv_run (s : State) (e : Env) : (s.withEnv e).run = s.run := rfl
@[simp] theorem State.withEnv_mem (s : State) (e : Env) : (s.withEnv e).mem = s.mem := rfl
@[simp] theorem State.withEnv_reg (s : State) (e : Env) (r : Reg) : (s.withEnv e).reg r = s.reg r := rfl

/-- A read that makes no poll is plain, so it is the same under every environment. -/
theorem State.memRead_withEnv {s : State} {a : Word} (h : (s.memRead a).2.polls = s.polls) (e : Env) :
    (s.withEnv e).memRead a = ((s.memRead a).1, (s.memRead a).2.withEnv e) := by
  have hne : a ≠ params.kbsrAddr := by
    rintro rfl
    simp [State.memRead_polls] at h
  rw [State.memRead_plain hne, State.memRead_plain hne]
  rfl

/-- One load, where its read makes no poll. -/
theorem loadWord_withEnv {dr : Reg} {a : Word} {s t : State} (h : loadWord dr a s = .next t)
    (hpolls : t.polls = s.polls) (e : Env) : loadWord dr a (s.withEnv e) = .next (t.withEnv e) := by
  cases h
  rw [loadWord_eq, State.memRead_withEnv hpolls]
  rfl

/-- An indirect load: polls are never taken back, so neither of the two reads made one. -/
theorem loadIndirect_withEnv {dr : Reg} {a : Word} {s t : State} (h : loadIndirect dr a s = .next t)
    (hpolls : t.polls = s.polls) (e : Env) : loadIndirect dr a (s.withEnv e) = .next (t.withEnv e) := by
  have hsecond : (s.memRead a).2.polls ≤ t.polls := by
    cases h
    exact State.polls_le_memRead _ _
  have hfirst : (s.memRead a).2.polls = s.polls := le_antisymm (hsecond.trans hpolls.le) (s.polls_le_memRead a)
  rw [loadIndirect_eq, State.memRead_withEnv hfirst]
  exact loadWord_withEnv h (hpolls.trans hfirst.symm) e

/-- PUTS and PUTSP read memory directly, under every environment alike (20_memory R44). -/
theorem putString_withEnv {bytes : Word → List Byte} {s t : State} (h : putString bytes s = .next t) (e : Env) :
    putString bytes (s.withEnv e) = .next (t.withEnv e) := by
  rcases putString_cases bytes s with ⟨-, hs⟩ | ⟨ws, hws, hs⟩
  · cases hs ▸ h
  · cases hs ▸ h
    simp only [putString, State.withEnv_mem, State.withEnv_reg, hws]
    rfl

/-- An instruction that neither polls nor takes a character carries any other environment along. -/
theorem exec_withEnv {i : Instr} {s t : State} (h : exec i s = .next t) (hpolls : t.polls = s.polls)
    (hinput : t.input = s.input) (e : Env) : exec i (s.withEnv e) = .next (t.withEnv e) := by
  cases i
  case ld => exact loadWord_withEnv h hpolls e
  case ldi | ldr => exact loadIndirect_withEnv h hpolls e
  case sti sr off =>
    cases h
    simp only [exec, execSti, State.withEnv_pc, State.memRead_withEnv hpolls]
    rfl
  case br n z p off =>
    cases (execBr_eq n z p off s).symm.trans h
    exact execBr_eq n z p off (s.withEnv e)
  case trapPuts => exact putString_withEnv (bytes := putsBytes) (s := s.link) h e
  case trapPutsp => exact putString_withEnv (bytes := putspBytes) (s := s.link) h e
  case trapGetc | trapIn =>
    obtain ⟨c, rest, hin, rfl⟩ := takeChar_next h
    have htaken : rest = c :: rest := hinput.trans hin
    simp at htaken
  case add | addi | and | andi | not | lea | st | str | jmp | jsr | jsrr | rti | res | trapOut | trapHalt
      | trapUndef00 | trapUndef26 | trapUndef28 | trapUndef30 | trapUndef40 | trapUndef80 =>
    cases h
    rfl

/-- A step that makes no poll does not fetch from the status address (20_memory R50, D9). -/
theorem pc_ne_kbsrAddr_of_step {s t : State} (h : step s = .next t) (hpolls : t.polls = s.polls) :
    s.pc ≠ params.kbsrAddr := by
  obtain ⟨-, hexec⟩ := step_next h
  have hle := exec_polls_le hexec
  intro hpc
  rw [State.fetch_state, State.setPc_polls, State.memRead_polls, if_pos hpc] at hle
  omega

/-- Settles O55: without a poll the fetch is plain, and so is every read of the instruction; without a taken character
it is neither GETC nor IN. -/
theorem stepWithoutInputIsIndependentOfIt : Obligations.StepWithoutInputIsIndependentOfIt := by
  intro s t input answers polls h hpolls hinput
  have hpc := pc_ne_kbsrAddr_of_step h hpolls
  obtain ⟨hrun, hexec⟩ := step_next h
  rw [State.fetch_plain hpc] at hexec
  have hstep : step (s.withEnv ⟨input, answers, polls⟩) =
      exec (decode (s.mem.word s.pc)) ((s.setPc (s.pc + 1)).withEnv ⟨input, answers, polls⟩) := by
    rw [step_of_running (s := s.withEnv ⟨input, answers, polls⟩) hrun,
      State.fetch_plain (s := s.withEnv ⟨input, answers, polls⟩) hpc]
    rfl
  exact hstep.trans (exec_withEnv hexec hpolls hinput ⟨input, answers, polls⟩)

/-! ### Where an instruction stops (40_execution_cycle R95) -/

/-- GETC and IN wait exactly when no character is left (60_exceptions R187). -/
theorem takeChar_eq_fault_iff {echo : Byte → State → State} {s : State} {f : Fault} :
    takeChar echo s = .fault f ↔ s.input = [] ∧ f = .awaitingInput s.output := by
  rcases takeChar_cases echo s with ⟨hin, h⟩ | ⟨c, rest, hin, h⟩
  · simp [h, hin, eq_comm]
  · simp [h, hin]

/-- PUTS and PUTSP hang exactly when no Word of memory is zero (44_trap R144). -/
theorem putString_eq_fault_iff {bytes : Word → List Byte} {s : State} {f : Fault} :
    putString bytes s = .fault f ↔ (∀ a : Word, s.mem.word a ≠ 0) ∧ f = .endlessString := by
  rcases putString_cases bytes s with ⟨hnone, h⟩ | ⟨ws, hws, h⟩
  · rw [h]
    exact ⟨fun hf => ⟨hnone, (Host.Outcome.fault.inj hf).symm⟩, fun ⟨_, hf⟩ => congrArg _ hf.symm⟩
  · rw [h]
    refine iff_of_false (by simp) fun ⟨hnone, _⟩ => ?_
    cases (Memory.stringFrom_eq_none.2 hnone).symm.trans hws

/-- The instructions with a way to stop: those that wait for a character and those that walk a string. -/
def CanStop (i : Instr) : Prop := i = .trapGetc ∨ i = .trapIn ∨ i = .trapPuts ∨ i = .trapPutsp

/-- Every other instruction answers a next state, from every state. -/
theorem exec_next_of_not_canStop {i : Instr} (h : ¬ CanStop i) (s : State) : ∃ t, exec i s = .next t := by
  cases i
  case trapGetc | trapIn | trapPuts | trapPutsp => simp [CanStop] at h
  all_goals exact ⟨_, rfl⟩

theorem takeChar_ne_refused (echo : Byte → State → State) (s : State) (r : Refusal) : takeChar echo s ≠ .refused r := by
  rcases takeChar_cases echo s with ⟨-, h⟩ | ⟨c, rest, -, h⟩ <;> simp [h]

theorem putString_ne_refused (bytes : Word → List Byte) (s : State) (r : Refusal) : putString bytes s ≠ .refused r := by
  rcases putString_cases bytes s with ⟨-, h⟩ | ⟨ws, -, h⟩ <;> simp [h]

/-- No instruction is refused: the four that can stop answer a next state or a fault, the others a next state. -/
theorem exec_ne_refused (i : Instr) (s : State) (r : Refusal) : exec i s ≠ .refused r := by
  by_cases hstop : CanStop i
  · rcases hstop with rfl | rfl | rfl | rfl
    · exact takeChar_ne_refused _ s.link r
    · exact takeChar_ne_refused _ (s.link.conPut params.inPrompt).conFlush r
    · exact putString_ne_refused putsBytes s.link r
    · exact putString_ne_refused putspBytes s.link r
  · obtain ⟨t, ht⟩ := exec_next_of_not_canStop hstop s
    simp [ht]

/-- Every stop of an instruction, with its fault: the four that can stop by their common ends, run after the link. -/
theorem exec_eq_fault_iff (i : Instr) (s : State) (f : Fault) :
    exec i s = .fault f ↔
      (i = .trapGetc ∧ s.input = [] ∧ f = .awaitingInput s.output) ∨
      (i = .trapIn ∧ s.input = [] ∧ f = .awaitingInput (s.output ++ params.inPrompt)) ∨
      ((i = .trapPuts ∨ i = .trapPutsp) ∧ (∀ a : Word, s.mem.word a ≠ 0) ∧ f = .endlessString) := by
  by_cases hstop : CanStop i
  · rcases hstop with rfl | rfl | rfl | rfl
    · simpa [exec, execTrapGetc] using takeChar_eq_fault_iff (echo := fun _ t => t) (s := s.link)
    · simpa [exec, execTrapIn] using takeChar_eq_fault_iff (echo := fun c t => (t.conPut [c]).conFlush)
        (s := (s.link.conPut params.inPrompt).conFlush)
    · simpa [exec, execTrapPuts] using putString_eq_fault_iff (bytes := putsBytes) (s := s.link)
    · simpa [exec, execTrapPutsp] using putString_eq_fault_iff (bytes := putspBytes) (s := s.link)
  · obtain ⟨t, ht⟩ := exec_next_of_not_canStop hstop s
    obtain ⟨hgetc, hin, hputs, hputsp⟩ : i ≠ .trapGetc ∧ i ≠ .trapIn ∧ i ≠ .trapPuts ∧ i ≠ .trapPutsp := by
      simpa [CanStop] using hstop
    simp [ht, hgetc, hin, hputs, hputsp]

/-- Settles O48: no refusal, and the stops of the four instructions that have one. -/
theorem onlyWaitsAndEndlessStringsStop : Obligations.OnlyWaitsAndEndlessStringsStop :=
  fun i s => ⟨exec_ne_refused i s, exec_eq_fault_iff i s⟩

/-! ### What a step is (40_execution_cycle R90, R93) -/

/-- Settles O13: the step of a running engine is the fetch, then the instruction; the fetch is a read and a write of
`pc`, and anywhere but at the status address that read is plain. -/
theorem stepRunsTheDecodedInstruction : Obligations.StepRunsTheDecodedInstruction := by
  intro s hrun
  refine ⟨?_, BitVec.toNat_add s.pc 1, fun hpc => ?_⟩
  · rw [step_of_running hrun, State.fetch_word, State.fetch_state]
  · rw [step_of_running hrun, State.fetch_plain hpc]

/-- A step of a stopped engine is the fault that its run state names. -/
theorem step_of_stopOf {s : State} {f : Fault} (h : stopOf s.run = some f) : step s = .fault f := by
  simp [step, h]

/-- Settles O14, by the fault of each terminal run state. -/
theorem noStepOnceStopped : Obligations.NoStepOnceStopped := by
  refine fun s => ⟨fun hrun => step_of_stopOf ?_, fun c hrun => step_of_stopOf ?_⟩
  · rw [hrun]
    rfl
  · rw [hrun]
    rfl

end Sys2Proof.Machine

/-! The operate instructions (41_operate): the Words of each form, its result with its frame, and the laws of
sequences. -/

namespace Sys2Proof
open Machine (params)

/-! ### Decoding a Word from its row -/

/-- The opcode of a Word whose row's mask covers the opcode field. -/
theorem opcodeOf_of_masked {w m p : Word} {op : Opcode} (h : w &&& m = p) (hm : m &&& 0xF000 = 0xF000)
    (hp : p.extractLsb' 12 4 = params.opcodeMap op) : opcodeOf (w.extractLsb' 12 4) = op := by
  have hcovers : ∀ i, 12 ≤ i → i < 16 → m.getLsbD i = true := by
    intro i hlo hhi
    have hi : (0xF000 : Word).getLsbD i = true := by interval_cases i <;> rfl
    exact (getLsbD_of_masked hm hi).trans hi
  rw [opcode_of_masked h hcovers, hp, opcodeOf_opcodeMap]

/-- Bit 5 of a Word whose row's mask covers it: the mode bit of ADD and AND. -/
theorem modeBit_of_masked {w m p : Word} (h : w &&& m = p) (hm : m.getLsbD 5 = true) : w[5] = p[5] :=
  getLsbD_of_masked h hm

end Sys2Proof

namespace Sys2Proof.Machine

/-! ### The result and the frame of every form (41_operate R100) -/

@[simp] theorem exec_add (dr sr1 sr2 : Reg) (s : State) :
    exec (.add dr sr1 sr2) s = .next (s.writeDest dr (s.reg sr1 + s.reg sr2)) := rfl

@[simp] theorem exec_addi (dr sr1 : Reg) (imm : BitVec 5) (s : State) :
    exec (.addi dr sr1 imm) s = .next (s.writeDest dr (s.reg sr1 + sext imm)) := rfl

@[simp] theorem exec_and (dr sr1 sr2 : Reg) (s : State) :
    exec (.and dr sr1 sr2) s = .next (s.writeDest dr (s.reg sr1 &&& s.reg sr2)) := rfl

@[simp] theorem exec_andi (dr sr1 : Reg) (imm : BitVec 5) (s : State) :
    exec (.andi dr sr1 imm) s = .next (s.writeDest dr (s.reg sr1 &&& sext imm)) := rfl

@[simp] theorem exec_not (dr sr1 : Reg) (s : State) :
    exec (.not dr sr1) s = .next (s.writeDest dr (~~~s.reg sr1)) := rfl

theorem State.writeDest_reg_self (s : State) (dr : Reg) (v : Word) : (s.writeDest dr v).reg dr = v := by
  simp

/-- Writing a destination touches that register and the condition code only (10_state R22, R29). -/
theorem State.writeDest_onlyDest (s : State) (dr : Reg) (v : Word) : OnlyDest dr s (s.writeDest dr v) := by
  have hregs : RegsSameBut [dr] s (s.writeDest dr v) := by
    intro r hr
    have hne : dr ≠ r := by simpa [eq_comm] using hr
    simp [hne]
  exact ⟨hregs, rfl, rfl, fun _ => rfl, ⟨rfl, rfl, rfl⟩, ⟨rfl, rfl⟩⟩

/-- What the five forms share: an instruction that writes `v` to `dr` answers a next state in which what is known of
`v` is true of `dr`, `cc` is that of `dr`, and nothing else has changed (41_operate R100). -/
theorem operate_result {dr : Reg} {v : Word} {s : State} {i : Instr} (P : Word → Prop)
    (hexec : exec i s = .next (s.writeDest dr v)) (hv : P v) :
    ∃ t, exec i s = .next t ∧ P (t.reg dr) ∧ t.cc = condOf (t.reg dr) ∧ OnlyDest dr s t := by
  refine ⟨s.writeDest dr v, hexec, ?_, ?_, s.writeDest_onlyDest dr v⟩
  · rwa [State.writeDest_reg_self]
  · rw [State.writeDest_reg_self, State.writeDest_cc]

/-! ### Sign-extended immediates (30_encoding R70) -/

/-- The bits of a sign-extended 5-bit immediate: its own below bit 5, its sign from there on. -/
theorem getLsbD_sext_imm5 (imm : BitVec 5) {k : Nat} (hk : k < 16) :
    (sext imm).getLsbD k = if k < 5 then imm.getLsbD k else imm.getLsbD 4 := by
  rw [sext, BitVec.getLsbD_signExtend, BitVec.msb_eq_getLsbD_last, decide_eq_true hk, Bool.true_and]

theorem sext_imm5_zero : sext (0 : BitVec 5) = 0#16 := by decide

theorem sext_imm5_one : sext (1 : BitVec 5) = 1#16 := by decide

/-- The immediate `#-1`, as added and as a mask. -/
theorem sext_imm5_neg_one : sext (0b11111 : BitVec 5) = BitVec.allOnes 16 := by decide

/-! ### The five forms (41_operate R101 to R105) -/

/-- Settles O17: the opcode and the mode bit are the row's, and the sum is the library's. -/
theorem addRegisterForm : Obligations.AddRegisterForm := by
  refine ⟨fun w h => ?_, fun dr sr1 sr2 s => ?_⟩
  · have hop : opcodeOf (w.extractLsb' 12 4) = .add := opcodeOf_of_masked h (by decide) (by decide)
    simp [decode, hop, modeBit_of_masked h]
  · exact operate_result (fun v => v.toNat = ((s.reg sr1).toNat + (s.reg sr2).toNat) % 65536)
      (exec_add dr sr1 sr2 s) (BitVec.toNat_add ..)

/-- Settles O18: the immediate adds its signed value, as an address offset does. -/
theorem addImmediateForm : Obligations.AddImmediateForm := by
  refine ⟨fun w h => ?_, fun dr sr1 imm s => ?_⟩
  · have hop : opcodeOf (w.extractLsb' 12 4) = .add := opcodeOf_of_masked h (by decide) (by decide)
    simp [decode, hop, modeBit_of_masked h]
  · exact operate_result (fun v => (v.toNat : Int) = ((s.reg sr1).toNat + imm.toInt) % 65536)
      (exec_addi dr sr1 imm s) (add_sext_toNat _ imm (by decide))

/-- Settles O19, bit by bit. -/
theorem andRegisterForm : Obligations.AndRegisterForm := by
  refine ⟨fun w h => ?_, fun dr sr1 sr2 s => ?_⟩
  · have hop : opcodeOf (w.extractLsb' 12 4) = .and := opcodeOf_of_masked h (by decide) (by decide)
    simp [decode, hop, modeBit_of_masked h]
  · exact operate_result (fun v => ∀ k : Nat, v.getLsbD k = ((s.reg sr1).getLsbD k && (s.reg sr2).getLsbD k))
      (exec_and dr sr1 sr2 s) (fun _ => BitVec.getLsbD_and)

/-- Settles O20, bit by bit: above its field the immediate has its sign. -/
theorem andImmediateForm : Obligations.AndImmediateForm := by
  refine ⟨fun w h => ?_, fun dr sr1 imm s => ?_⟩
  · have hop : opcodeOf (w.extractLsb' 12 4) = .and := opcodeOf_of_masked h (by decide) (by decide)
    simp [decode, hop, modeBit_of_masked h]
  · refine operate_result (fun v => ∀ k : Nat, k < 16 →
      v.getLsbD k = ((s.reg sr1).getLsbD k && (if k < 5 then imm.getLsbD k else imm.getLsbD 4)))
      (exec_andi dr sr1 imm s) fun k hk => ?_
    rw [BitVec.getLsbD_and, getLsbD_sext_imm5 imm hk]

/-- Settles O21: the complement is the distance to 0xFFFF. -/
theorem notComplements : Obligations.NotComplements := by
  refine ⟨fun w h => ?_, fun dr sr1 s => ?_⟩
  · have hop : opcodeOf (w.extractLsb' 12 4) = .not := opcodeOf_of_masked h (by decide) (by decide)
    simp [decode, hop]
  · exact operate_result (fun v => v.toNat = 0xFFFF - (s.reg sr1).toNat)
      (exec_not dr sr1 s) BitVec.toNat_not

/-! ### Laws of sequences (41_operate R106) -/

/-- Settles O22: each sequence writes the word-level expression, and the laws are those of words. -/
theorem arithmeticLawsOfSequences : Obligations.ArithmeticLawsOfSequences := by
  intro r d a b s
  refine ⟨?negate, ?notTwice, ?incDec, ?commutes, ?clears, ?copies⟩
  case negate =>
    refine ⟨_, _, exec_not .., exec_addi .., ?_⟩
    rw [State.writeDest_reg_self, State.writeDest_reg_self, sext_imm5_one, ← BitVec.neg_eq_not_add, BitVec.toNat_neg]
  case notTwice =>
    refine ⟨_, _, exec_not .., exec_not .., ?_⟩
    rw [State.writeDest_reg_self, State.writeDest_reg_self, BitVec.not_not]
  case incDec =>
    have hcancel : sext (1 : BitVec 5) + sext (0b11111 : BitVec 5) = 0#16 := by decide
    refine ⟨_, _, exec_addi .., exec_addi .., ?_⟩
    rw [State.writeDest_reg_self, State.writeDest_reg_self, BitVec.add_assoc, hcancel, BitVec.add_zero]
  case commutes => rw [exec_add, exec_add, BitVec.add_comm]
  case clears =>
    have hzero : s.reg r &&& sext (0 : BitVec 5) = 0 := by
      rw [sext_imm5_zero]
      exact BitVec.and_zero
    exact ⟨_, exec_andi .., (s.writeDest_reg_self r _).trans hzero, condOf_eq_zero.2 hzero⟩
  case copies =>
    refine ⟨_, exec_andi .., ?_⟩
    rw [State.writeDest_reg_self, sext_imm5_neg_one, BitVec.and_allOnes]

end Sys2Proof.Machine

/-! Control transfer (42_control): the Words of each instruction, the `pc` and the link it leaves with its frame, and
the return from a call. -/

namespace Sys2Proof.Machine

/-! ### The next state of every instruction (42_control R111 to R114) -/

/-- Taken or not, a BR writes the `pc` of the table of R25 and nothing else. -/
theorem exec_br (n z p : Bool) (off : BitVec 9) (s : State) :
    exec (.br n z p off) s = .next (s.setPc (nextPc s (.br n z p off))) :=
  execBr_eq n z p off s

/-- A BR whose condition holds goes to its PC-relative address (R111). -/
theorem exec_br_taken {n z p : Bool} {s : State} (h : branchTaken n z p s.cc = true) (off : BitVec 9) :
    exec (.br n z p off) s = .next (s.setPc (pcRel9 s.pc off)) := by
  rw [exec_br, nextPc, if_pos h]

@[simp] theorem exec_jmp (base : Reg) (s : State) : exec (.jmp base) s = .next (s.setPc (s.reg base)) := rfl

@[simp] theorem exec_jsr (off : BitVec 11) (s : State) :
    exec (.jsr off) s = .next (s.link.setPc (pcRel11 s.pc off)) := rfl

/-- JSRR reads its base register after the link. -/
@[simp] theorem exec_jsrr (base : Reg) (s : State) :
    exec (.jsrr base) s = .next (s.link.setPc (s.link.reg base)) := rfl

/-! ### The frames (42_control R110) -/

theorem State.link_reg_seven (s : State) : s.link.reg 7 = s.pc := by
  simp

theorem State.setPc_onlyPcAnd (s : State) (v : Word) : OnlyPcAnd [] s (s.setPc v) :=
  ⟨fun _ _ => rfl, rfl, rfl, fun _ => rfl, ⟨rfl, rfl, rfl⟩, ⟨rfl, rfl⟩⟩

/-- A call touches the link register and `pc` only (R113, R114). -/
theorem State.link_setPc_onlyPcAnd (s : State) (v : Word) : OnlyPcAnd [7] s (s.link.setPc v) := by
  have hregs : RegsSameBut [7] s (s.link.setPc v) := by
    intro r hr
    have hne : 7 ≠ r := by simpa [eq_comm] using hr
    simp [hne]
  exact ⟨hregs, rfl, rfl, fun _ => rfl, ⟨rfl, rfl, rfl⟩, ⟨rfl, rfl⟩⟩

/-! ### The four instructions -/

/-- Settles O23: the condition in words is `branchTaken_iff`, and a BR that is not taken leaves `pc`. -/
theorem branchOnConditionCode : Obligations.BranchOnConditionCode := by
  refine ⟨fun w h => ?_, fun n z p off s => ?_⟩
  · have hop : opcodeOf (w.extractLsb' 12 4) = .br := opcodeOf_of_masked h (by decide) (by decide)
    simp [decode, hop]
  · rw [← branchTaken_iff]
    refine ⟨_, exec_br n z p off s, fun htaken => ?_, fun hnot => ?_, s.setPc_onlyPcAnd _⟩
    · rw [State.setPc_pc, nextPc, if_pos htaken]
      exact add_sext_toNat s.pc off (by decide)
    · rw [State.setPc_pc, nextPc, if_neg hnot]

/-- Settles O24: no bit matches any condition code, and all three together match every one. -/
theorem branchWithNoBitsIsANop : Obligations.BranchWithNoBitsIsANop := by
  refine fun off s => ⟨exec_br_no_bits off s, exec_br_taken ?_ off⟩
  cases s.cc <;> rfl

/-- Settles O25: JMP writes its base register to `pc`. -/
theorem jumpThroughBaseRegister : Obligations.JumpThroughBaseRegister := by
  refine ⟨fun w h => ?_, by decide, fun base s => ⟨_, exec_jmp base s, rfl, s.setPc_onlyPcAnd _⟩⟩
  have hop : opcodeOf (w.extractLsb' 12 4) = .jmp := opcodeOf_of_masked h (by decide) (by decide)
  simp [decode, hop]

/-- Settles O26: bit 11 is the row's, and the target is a sum with a sign-extended offset. -/
theorem jsrLinksThenJumps : Obligations.JsrLinksThenJumps := by
  refine ⟨fun w h => ?_, fun off s => ?_⟩
  · have hop : opcodeOf (w.extractLsb' 12 4) = .jsr := opcodeOf_of_masked h (by decide) (by decide)
    have hmode : w[11] = true := getLsbD_of_masked h (by decide)
    simp [decode, hop, hmode]
  · exact ⟨_, exec_jsr off s, s.link_reg_seven, add_sext_toNat s.pc off (by decide), s.link_setPc_onlyPcAnd _⟩

/-- Settles O27: the target is read from the state after the link, which differs from the state before at register 7
only. -/
theorem jsrrLinksBeforeReadingTheBase : Obligations.JsrrLinksBeforeReadingTheBase := by
  refine ⟨fun w h => ?_, fun base s => ?_⟩
  · have hop : opcodeOf (w.extractLsb' 12 4) = .jsr := opcodeOf_of_masked h (by decide) (by decide)
    have hmode : w[11] = false := getLsbD_of_masked h (by decide)
    simp [decode, hop, hmode]
  · refine ⟨_, exec_jsrr base s, s.link_reg_seven, ?_, fun hbase => ?_, s.link_setPc_onlyPcAnd _⟩
    · rintro rfl
      exact s.link_reg_seven
    · rw [State.setPc_pc, State.link_reg, if_neg hbase.symm]

/-! ### The return from a call (42_control R115) -/

/-- Whatever its target, an instruction that links is returned from by RET. -/
theorem ret_after_link {i : Instr} {s : State} {target : Word} (hcall : exec i s = .next (s.link.setPc target)) :
    ∃ t u, exec i s = .next t ∧ exec (.jmp 7) t = .next u ∧ u.pc = s.pc :=
  ⟨_, _, hcall, exec_jmp 7 _, s.link_reg_seven⟩

/-- Settles O28: JSR and JSRR both link. -/
theorem callThenRetReturns : Obligations.CallThenRetReturns :=
  fun off base s => ⟨ret_after_link (exec_jsr off s), ret_after_link (exec_jsrr base s)⟩

end Sys2Proof.Machine

/-! Loads and stores (43_load_store): the Words of each instruction, the reads and the Word stored, the frame, and the
double read of LDR after STR. -/

namespace Sys2Proof.Machine

/-! ### Decoding a Word whose row fixes the opcode alone (30_encoding R76) -/

theorem opcodeOf_of_opcodeRow {w : Word} (op : Opcode) (h : w &&& 0xF000 = encodeNone op) :
    opcodeOf (w.extractLsb' 12 4) = op :=
  opcodeOf_of_masked h (by decide) (opcode_encodeNone op)

/-! ### The next state of every instruction (43_load_store R122 to R128) -/

@[simp] theorem exec_ld (dr : Reg) (off : BitVec 9) (s : State) :
    exec (.ld dr off) s = loadWord dr (pcRel9 s.pc off) s := rfl

@[simp] theorem exec_ldi (dr : Reg) (off : BitVec 9) (s : State) :
    exec (.ldi dr off) s = loadIndirect dr (pcRel9 s.pc off) s := rfl

@[simp] theorem exec_ldr (dr base : Reg) (off : BitVec 6) (s : State) :
    exec (.ldr dr base off) s = loadIndirect dr (baseOff6 (s.reg base) off) s := rfl

@[simp] theorem exec_lea (dr : Reg) (off : BitVec 9) (s : State) :
    exec (.lea dr off) s = .next (s.writeDest dr (pcRel9 s.pc off)) := rfl

@[simp] theorem exec_st (sr : Reg) (off : BitVec 9) (s : State) :
    exec (.st sr off) s = .next (s.memWrite (pcRel9 s.pc off) (s.reg sr)) := rfl

/-- STI stores in the state that the read of the pointer leaves. -/
@[simp] theorem exec_sti (sr : Reg) (off : BitVec 9) (s : State) :
    exec (.sti sr off) s =
      .next ((s.memRead (pcRel9 s.pc off)).2.memWrite (s.memRead (pcRel9 s.pc off)).1 (s.reg sr)) := rfl

@[simp] theorem exec_str (sr base : Reg) (off : BitVec 6) (s : State) :
    exec (.str sr base off) s = .next (s.memWrite (baseOff6 (s.reg base) off) (s.reg sr)) := rfl

/-! ### Loads: the value, the flags and the frame (43_load_store R120) -/

/-- The flags that a destination write sets are those of the register written (10_state R29). -/
theorem State.writeDest_cc_self (s : State) (dr : Reg) (v : Word) :
    (s.writeDest dr v).cc = condOf ((s.writeDest dr v).reg dr) := by
  rw [State.writeDest_reg_self, State.writeDest_cc]

/-- A load changes memory and input as its reads do, and of the rest the destination and the flags only. -/
theorem State.afterReads_writeDest_frame (s : State) (as : List Word) (dr : Reg) (v : Word) :
    MemInputOf (s.afterReads as) ((s.afterReads as).writeDest dr v) ∧
      RegsSameBut [dr] s ((s.afterReads as).writeDest dr v) ∧ ((s.afterReads as).writeDest dr v).pc = s.pc ∧
      ((s.afterReads as).writeDest dr v).run = s.run ∧ OutputSame s ((s.afterReads as).writeDest dr v) := by
  obtain ⟨hregs, -⟩ := (s.afterReads as).writeDest_onlyDest dr v
  exact ⟨⟨rfl, rfl, rfl, rfl⟩, fun r hr => (hregs r hr).trans (s.afterReads_reg as r), by simp, by simp,
    ⟨by simp, by simp⟩⟩

/-- A load none of whose reads is at the status address leaves memory and input alone. -/
theorem State.afterReads_writeDest_plain {s : State} {as : List Word} (h : params.kbsrAddr ∉ as) (dr : Reg) (v : Word) :
    MemSame s ((s.afterReads as).writeDest dr v) ∧ InputSame s ((s.afterReads as).writeDest dr v) := by
  rw [State.afterReads_of_notMem h]
  exact ⟨fun _ => rfl, rfl, rfl, rfl⟩

/-- Two reads in sequence, neither at the status address: the Word at the address that the first Word names. -/
theorem State.memRead_memRead_plain {s : State} {a : Word} (ha : a ≠ params.kbsrAddr)
    (hp : s.mem.word a ≠ params.kbsrAddr) :
    (s.memRead a).2.memRead (s.memRead a).1 = (s.mem.word (s.mem.word a), s) := by
  rw [State.memRead_plain ha, State.memRead_plain hp]

/-- What LDI and LDR share: the pointer `p` read at `a`, then the value read at `p` in the state `u` that the first read
leaves (D19); and the frame. -/
theorem loadIndirect_result {i : Instr} {dr : Reg} {a : Word} {s : State} (hexec : exec i s = loadIndirect dr a s) :
    ∃ p u t, s.memRead a = (p, u) ∧ exec i s = .next t ∧ t.reg dr = (u.memRead p).1 ∧ t.cc = condOf (t.reg dr) ∧
      (a ≠ params.kbsrAddr → s.mem.word a ≠ params.kbsrAddr →
        t.reg dr = s.mem.word (s.mem.word a) ∧ MemSame s t ∧ InputSame s t) ∧
      MemInputOf (u.memRead p).2 t ∧ RegsSameBut [dr] s t ∧ t.pc = s.pc ∧ t.run = s.run ∧ OutputSame s t := by
  refine ⟨(s.memRead a).1, (s.memRead a).2, _, rfl, hexec, State.writeDest_reg_self .., State.writeDest_cc_self ..,
    fun ha hp => ⟨?_, ?_⟩, s.afterReads_writeDest_frame [a, (s.memRead a).1] dr _⟩
  · rw [State.writeDest_reg_self, State.memRead_memRead_plain ha hp]
  · refine State.afterReads_writeDest_plain (as := [a, (s.memRead a).1]) ?_ dr _
    simp [State.memRead_plain ha, ha.symm, hp.symm]

/-- Settles O29: one read, then the destination. -/
theorem ldLoadsPcRelative : Obligations.LdLoadsPcRelative := by
  refine ⟨fun w h => ?_, fun dr off s => ?_⟩
  · simp [decode, opcodeOf_of_opcodeRow .ld h]
  · refine ⟨_, exec_ld dr off s, State.writeDest_reg_self .., State.writeDest_cc_self .., fun ha => ⟨?_, ?_⟩,
      s.afterReads_writeDest_frame [pcRel9 s.pc off] dr _⟩
    · rw [State.writeDest_reg_self, State.memRead_plain ha]
    · exact State.afterReads_writeDest_plain (as := [pcRel9 s.pc off]) (by simpa using ha.symm) dr _

/-- Settles O30: the indirect load at the PC-relative address. -/
theorem ldiLoadsIndirect : Obligations.LdiLoadsIndirect := by
  refine ⟨fun w h => ?_, fun dr off s => loadIndirect_result (exec_ldi dr off s)⟩
  simp [decode, opcodeOf_of_opcodeRow .ldi h]

/-- Settles O31: the indirect load at base plus offset. -/
theorem ldrReadsTwice : Obligations.LdrReadsTwice := by
  refine ⟨fun w h => ?_, fun dr base off s => loadIndirect_result (exec_ldr dr base off s)⟩
  simp [decode, opcodeOf_of_opcodeRow .ldr h]

/-- Settles O32: LEA writes an address to its destination as an operate instruction writes its result. -/
theorem leaComputesTheAddress : Obligations.LeaComputesTheAddress := by
  refine ⟨fun w h => ?_, fun dr off s => ?_⟩
  · simp [decode, opcodeOf_of_opcodeRow .lea h]
  · exact operate_result (fun v => (v.toNat : Int) = (s.pc.toNat + off.toInt) % 65536)
      (exec_lea dr off s) (add_sext_toNat s.pc off (by decide))

/-! ### Stores (43_load_store R126 to R128) -/

/-- Settles O33: one store at the PC-relative address. -/
theorem stStoresPcRelative : Obligations.StStoresPcRelative := by
  refine ⟨fun w h => ?_, fun sr off s =>
    ⟨_, exec_st sr off s, Memory.word_setWord_same .., s.memWrite_onlyWord _ _⟩⟩
  simp [decode, opcodeOf_of_opcodeRow .st h]

/-- Settles O34: the read leaves everything but memory and input alone, and the store is made in the state it leaves. -/
theorem stiStoresIndirect : Obligations.StiStoresIndirect := by
  refine ⟨fun w h => ?_, fun sr off s => ?_⟩
  · simp [decode, opcodeOf_of_opcodeRow .sti h]
  · refine ⟨(s.memRead (pcRel9 s.pc off)).1, (s.memRead (pcRel9 s.pc off)).2, _, rfl, exec_sti sr off s,
      Memory.word_setWord_same .., State.memWrite_memSameBut _ _ _, ⟨rfl, rfl, rfl⟩, fun ha => ?_,
      fun r _ => s.memRead_reg _ r, s.memRead_pc _, s.memRead_cc _, s.memRead_run _, s.memRead_output _,
      s.memRead_flushed _⟩
    rw [State.memRead_plain ha]
    exact ⟨rfl, s.memWrite_memSameBut _ _, rfl, rfl, rfl⟩

/-- Settles O35: one store at base plus offset. -/
theorem strStoresBasePlusOffset : Obligations.StrStoresBasePlusOffset := by
  refine ⟨fun w h => ?_, fun sr base off s =>
    ⟨_, exec_str sr base off s, Memory.word_setWord_same .., s.memWrite_onlyWord _ _⟩⟩
  simp [decode, opcodeOf_of_opcodeRow .str h]

/-! ### STR, then LDR at the same place (43_load_store R129) -/

/-- Settles O36: LDR's first read finds the Word stored and its second read goes to the address which that Word names,
where the store is seen only if that is its own place. -/
theorem strThenLdrLoadsThroughTheStoredWord : Obligations.StrThenLdrLoadsThroughTheStoredWord := by
  intro sr dr base off s hplace hstored
  refine ⟨_, _, exec_str sr base off s, exec_ldr dr base off _, ?_⟩
  have hfirst : (s.memWrite (baseOff6 (s.reg base) off) (s.reg sr)).mem.word (baseOff6 (s.reg base) off) = s.reg sr :=
    Memory.word_setWord_same ..
  rw [State.writeDest_reg_self, State.memWrite_reg, State.memRead_memRead_plain hplace (by rwa [hfirst]), hfirst]
  exact Memory.word_setWord ..

end Sys2Proof.Machine

/-! TRAP and its services (44_trap): the Words of each row, the common ends after the link with their frames, and the
undefined vectors. -/

namespace Sys2Proof
open Machine

/-! ### Decoding the Words of TRAP (30_encoding R75, R76) -/

/-- A Word with the opcode of TRAP is decoded by its vector alone. -/
theorem decode_of_trapOpcode {w : Word} (h : w &&& 0xF000 = 0xF000) : decode w = decodeTrap (w.extractLsb' 0 8) := by
  simp [decode, opcodeOf_of_opcodeRow .trap h]

/-- A Word of a service's row differs from the encoded service in bits 11:8 only, which no field covers. -/
theorem decode_of_serviceRow {w : Word} (svc : TrapService) (h : w &&& 0xF0FF = encodeTrap (params.trapMap svc)) :
    decode w = decodeTrap (params.trapMap svc) := by
  rw [← decode_encodeTrap]
  refine decode_eq_of_agree ?_
  rw [decode_encodeTrap, uncoveredBits_decodeTrap, ← h, BitVec.and_assoc]
  rfl

/-- The instructions of the six undefined rows with the vector `v`. -/
def undefinedRows (v : BitVec 8) : List Instr :=
  [.trapUndef00 v, .trapUndef26 v, .trapUndef28 v, .trapUndef30 v, .trapUndef40 v, .trapUndef80 v]

/-- A vector outside the services' range is decoded to an undefined row. -/
theorem decodeTrap_mem_undefinedRows : ∀ v : BitVec 8, v.toNat < 0x20 ∨ 0x25 < v.toNat →
    decodeTrap v ∈ undefinedRows v := by
  decide

end Sys2Proof

namespace Sys2Proof.Machine

/-! ### The next state of every service (44_trap R142 to R148) -/

@[simp] theorem exec_trapOut (s : State) :
    exec .trapOut s = .next (s.link.conPut [lowByte (s.link.reg 0)]).conFlush := rfl

@[simp] theorem exec_trapPuts (s : State) : exec .trapPuts s = putString putsBytes s.link := rfl

@[simp] theorem exec_trapPutsp (s : State) : exec .trapPutsp s = putString putspBytes s.link := rfl

@[simp] theorem exec_trapHalt (s : State) :
    exec .trapHalt s = .next ((s.link.conPut params.haltNotice).conFlush.setRun .halted) := rfl

/-- With a character left, GETC and IN take it into x[0] with its flags. -/
theorem takeChar_of_cons {echo : Byte → State → State} {s : State} {c : Byte} {rest : List Byte}
    (hin : s.input = c :: rest) : takeChar echo s = .next ((echo c (s.setInput rest)).writeDest 0 (zext8 c)) := by
  simp [takeChar, State.kbdTake, hin]

theorem exec_trapGetc_of_cons {s : State} {c : Byte} {rest : List Byte} (hin : s.input = c :: rest) :
    exec .trapGetc s = .next ((s.link.setInput rest).writeDest 0 (zext8 c)) :=
  takeChar_of_cons hin

theorem exec_trapIn_of_cons {s : State} {c : Byte} {rest : List Byte} (hin : s.input = c :: rest) :
    exec .trapIn s = .next
      (((((s.link.conPut params.inPrompt).conFlush.setInput rest).conPut [c]).conFlush).writeDest 0 (zext8 c)) :=
  takeChar_of_cons hin

/-- An undefined row of TRAP aborts after the link (R148, D13). -/
theorem exec_undefinedRow {v : BitVec 8} {i : Instr} (hi : i ∈ undefinedRows v) (s : State) :
    exec i s = .next (s.link.raiseAbort .undefinedTrap) := by
  simp only [undefinedRows, List.mem_cons, List.not_mem_nil, or_false] at hi
  rcases hi with rfl | rfl | rfl | rfl | rfl | rfl <;> rfl

/-! ### The link and the frames (44_trap R140) -/

/-- The link writes x[7] and no other register. -/
theorem State.link_regsSameBut (s : State) : RegsSameBut [7] s s.link := by
  intro r hr
  have hne : 7 ≠ r := by simpa [eq_comm] using hr
  rw [State.link_reg, if_neg hne]

/-- What OUT, PUTS and PUTSP end in, bytes written and flushed after the link, changes the link and the output only. -/
theorem State.link_print_onlyLinkAndOutput (s : State) (bytes : List Byte) :
    OnlyLinkAndOutput s (s.link.conPut bytes).conFlush :=
  ⟨s.link_regsSameBut, rfl, rfl, rfl, fun _ => rfl, rfl, rfl, rfl⟩

/-! ### Characters and strings -/

theorem zext8_eq_zero {c : Byte} : zext8 c = 0 ↔ c = 0 := by
  rw [← BitVec.toNat_inj, ← BitVec.toNat_inj, zext8_toNat]
  rfl

/-- A character is never negative as a Word. -/
theorem condOf_zext8 (c : Byte) : condOf (zext8 c) = if c = 0 then .zero else .pos := by
  split
  next h =>
    subst h
    decide
  next h =>
    have hsign : (zext8 c)[15] = false := by simp [zext8]
    exact condOf_eq_pos.2 ⟨mt zext8_eq_zero.1 h, hsign⟩

theorem lowByte_toNat (v : Word) : (lowByte v).toNat = v.toNat % 256 := by
  simp [lowByte]

/-- The two bytes of PUTSP as the rule states them: the low one always, then the high one if it is not zero (R146). -/
theorem putspBytes_eq (w : Word) : putspBytes w = lowByte w :: if highByte w = 0 then [] else [highByte w] := by
  unfold putspBytes
  split <;> rfl

/-- A string whose first zero Word is `k` Words from x[0] is written up to that Word. -/
theorem putString_of_zero_at {bytes : Word → List Byte} {s : State} {k : Nat} (hk : k < memWords)
    (hzero : s.mem.word (s.reg 0 + BitVec.ofNat 16 k) = 0)
    (hbefore : ∀ j < k, s.mem.word (s.reg 0 + BitVec.ofNat 16 j) ≠ 0) :
    putString bytes s = .next (s.conPut
      ((List.range k).flatMap fun j => bytes (s.mem.word (s.reg 0 + BitVec.ofNat 16 j)))).conFlush := by
  have hws := Memory.stringFrom_eq_some.2 ⟨k, hk, hzero, hbefore, rfl⟩
  simp only [putString, hws, List.flatMap_map]

/-- What PUTS and PUTSP share: the link does not move the string, so each writes the Words before the first zero Word in
its own manner. -/
theorem stringService_result {i : Instr} {bytes : Word → List Byte}
    (hexec : ∀ s, exec i s = putString bytes s.link) {s : State} {k : Nat} (hk : k < 65536)
    (hzero : s.mem.word (s.reg 0 + BitVec.ofNat 16 k) = 0)
    (hbefore : ∀ j, j < k → s.mem.word (s.reg 0 + BitVec.ofNat 16 j) ≠ 0) :
    ∃ t, exec i s = .next t ∧ t.reg 7 = s.pc ∧
      t.output = s.output ++ ((List.range k).flatMap fun j => bytes (s.mem.word (s.reg 0 + BitVec.ofNat 16 j))) ∧
      t.flushed = t.output.length ∧ OnlyLinkAndOutput s t := by
  have hstart : s.link.reg 0 = s.reg 0 := by simp
  rw [← hstart] at hzero hbefore ⊢
  exact ⟨_, (hexec s).trans (putString_of_zero_at hk hzero hbefore), s.link_reg_seven, rfl, rfl,
    s.link_print_onlyLinkAndOutput _⟩

/-! ### The six services -/

/-- Settles O38: the registers written are those of O50; without a character the wait is that of O48. -/
theorem getcTakesACharacter : Obligations.GetcTakesACharacter := by
  refine ⟨fun w h => ?_, fun s c rest hin => ?_, fun s hin => ?_⟩
  · simp only [decode_of_serviceRow .getc h, decodeTrap_trapMap]
  · have hexec := exec_trapGetc_of_cons hin
    exact ⟨_, hexec, by simp, by rw [State.writeDest_reg_self, zext8_toNat], condOf_zext8 c, rfl, rfl, rfl, ⟨rfl, rfl⟩,
      onlyNamedRegistersAreWritten _ _ _ hexec, rfl, rfl, fun _ => rfl⟩
  · exact (exec_eq_fault_iff ..).2 (.inl ⟨rfl, hin, rfl⟩)

/-- Settles O39: the link does not touch x[0], whose low byte is the one written. -/
theorem outWritesTheLowByte : Obligations.OutWritesTheLowByte := by
  refine ⟨fun w h => ?_, fun s => ?_⟩
  · simp only [decode_of_serviceRow .out h, decodeTrap_trapMap]
  · have hlow : (lowByte (s.link.reg 0)).toNat = (s.reg 0).toNat % 256 := by simp [lowByte_toNat]
    exact ⟨_, _, exec_trapOut s, s.link_reg_seven, rfl, hlow, rfl, s.link_print_onlyLinkAndOutput _⟩

/-- Settles O40: one byte for each Word of the string; the endless walk is that of O48. -/
theorem putsWritesTheString : Obligations.PutsWritesTheString := by
  refine ⟨fun w h => ?_, fun s k hk hzero hbefore => ?_, fun s hnone => ?_⟩
  · simp only [decode_of_serviceRow .puts h, decodeTrap_trapMap]
  · rw [List.map_eq_flatMap]
    exact stringService_result exec_trapPuts hk hzero hbefore
  · exact (exec_eq_fault_iff ..).2 (.inr (.inr ⟨.inl rfl, hnone, rfl⟩))

/-- Settles O41: as GETC, between the prompt and the echo. -/
theorem inPromptsTakesAndEchoes : Obligations.InPromptsTakesAndEchoes := by
  refine ⟨fun w h => ?_, fun s c rest hin => ?_, fun s hin => ?_⟩
  · simp only [decode_of_serviceRow .in h, decodeTrap_trapMap]
  · have hexec := exec_trapIn_of_cons hin
    exact ⟨_, hexec, by simp, by rw [State.writeDest_reg_self, zext8_toNat], condOf_zext8 c, rfl, rfl, rfl, rfl, rfl,
      onlyNamedRegistersAreWritten _ _ _ hexec, rfl, rfl, fun _ => rfl⟩
  · exact (exec_eq_fault_iff ..).2 (.inr (.inl ⟨rfl, hin, rfl⟩))

/-- Settles O42: one or two bytes for each Word of the string. -/
theorem putspWritesThePackedString : Obligations.PutspWritesThePackedString := by
  refine ⟨fun w h => ?_, fun s k hk hzero hbefore => ?_, fun s hnone => ?_⟩
  · simp only [decode_of_serviceRow .putsp h, decodeTrap_trapMap]
  · simp only [← putspBytes_eq]
    exact stringService_result exec_trapPutsp hk hzero hbefore
  · exact (exec_eq_fault_iff ..).2 (.inr (.inr ⟨.inr rfl, hnone, rfl⟩))

/-- Settles O43: every update of HALT after the link is of `run` or of the output. -/
theorem haltEndsTheRun : Obligations.HaltEndsTheRun := by
  refine ⟨fun w h => ?_, fun s => ⟨_, exec_trapHalt s, rfl, s.link_reg_seven, rfl, rfl, s.link_regsSameBut, rfl, rfl,
    fun _ => rfl, rfl, rfl, rfl⟩⟩
  simp only [decode_of_serviceRow .halt h, decodeTrap_trapMap]

/-! ### The undefined vectors -/

/-- What every undefined row answers: the link, the fatal condition, and nothing else. -/
theorem undefinedRow_result {v : BitVec 8} {i : Instr} (hi : i ∈ undefinedRows v) (s : State) :
    ∃ t, exec i s = .next t ∧ t.reg 7 = s.pc ∧ t.run = .aborted .undefinedTrap ∧ OnlyRunAnd [7] s t :=
  ⟨_, exec_undefinedRow hi s, s.link_reg_seven, rfl, s.link_regsSameBut, rfl, rfl, fun _ => rfl, ⟨rfl, rfl, rfl⟩,
    ⟨rfl, rfl⟩⟩

/-- Settles O44: the vector of the Word is its low byte, and one outside the services' range leads to an undefined
row. -/
theorem undefinedTrapAbortsAfterTheLink : Obligations.UndefinedTrapAbortsAfterTheLink := by
  refine ⟨fun w s hop hvect => ?_, fun v s i hi => undefinedRow_result hi s, fun _ => rfl⟩
  have hlow : (w.extractLsb' 0 8).toNat = w.toNat % 256 := lowByte_toNat w
  rw [decode_of_trapOpcode hop]
  exact undefinedRow_result (decodeTrap_mem_undefinedRows _ (by rwa [hlow])) s

end Sys2Proof.Machine

/-! RTI and RES (45_unimplemented): their Words are those of an opcode, and both raise a fatal condition and do nothing
else. -/

namespace Sys2Proof.Machine

@[simp] theorem exec_rti (s : State) : exec .rti s = .next (s.raiseAbort .rtiUnimplemented) := rfl

@[simp] theorem exec_res (s : State) : exec .res s = .next (s.raiseAbort .resUnimplemented) := rfl

/-- A fatal condition writes the run state and nothing else (60_exceptions R171). -/
theorem State.raiseAbort_onlyRun (s : State) (c : Cause) : OnlyRunAnd [] s (s.raiseAbort c) :=
  ⟨fun _ _ => rfl, rfl, rfl, fun _ => rfl, ⟨rfl, rfl, rfl⟩, ⟨rfl, rfl⟩⟩

/-- Settles O46: the opcode alone makes a Word RTI, and the fatal condition writes the run state only. -/
theorem rtiAborts : Obligations.RtiAborts := by
  refine ⟨fun w h => ?_, fun s => ⟨_, exec_rti s, s.raiseAbort_run _, s.raiseAbort_onlyRun _⟩⟩
  simp [decode, opcodeOf_of_opcodeRow .rti h]

/-- Settles O47: as RTI, with the opcode and the cause of RES. -/
theorem resAborts : Obligations.ResAborts := by
  refine ⟨fun w h => ?_, fun s => ⟨_, exec_res s, s.raiseAbort_run _, s.raiseAbort_onlyRun _⟩⟩
  simp [decode, opcodeOf_of_opcodeRow .res h]

end Sys2Proof.Machine

/-! The fatal condition (60_exceptions): what it writes, and that the run ends with it. -/

namespace Sys2Proof.Machine

/-- The engine answers the fault of the cause once the fatal condition is raised (40_execution_cycle R93). -/
theorem step_raiseAbort (s : State) (c : Cause) : step (s.raiseAbort c) = .fault (.aborted c) :=
  (noStepOnceStopped _).2 c (s.raiseAbort_run c)

/-- Settles O45: the write of the run state alone, and the fault that the next step then answers. -/
theorem abortChangesOnlyRun : Obligations.AbortChangesOnlyRun := by
  refine fun s c => ⟨s.raiseAbort_run c, s.raiseAbort_onlyRun c, fun t hnext => ?_⟩
  rw [step_raiseAbort] at hnext
  cases hnext

end Sys2Proof.Machine

/-! Reset, launch and the loading of images (70_reset_and_hazards), and the placing of a Word where the next step
fetches it (log 14). -/

namespace Sys2Proof.Machine

/-! ### The loader (70_reset_and_hazards R207) -/

/-- The bytes of the Words in an image file: each Word big-endian. -/
def imageBytes (ws : List Word) : List Byte := ws.flatMap fun w => [highByte w, lowByte w]

@[simp] theorem imageBytes_nil : imageBytes [] = [] := rfl

@[simp] theorem imageBytes_cons (w : Word) (ws : List Word) :
    imageBytes (w :: ws) = highByte w :: lowByte w :: imageBytes ws := rfl

/-- The first Word is the origin and is not itself stored. -/
theorem Memory.loadImage_imageBytes (m : Memory) (origin : Word) (ws : List Word) :
    m.loadImage (imageBytes (origin :: ws)) = some (m.loadWords origin.toNat (imageBytes ws)) := by
  simp [Memory.loadImage]

/-- Inside memory the next Word is stored and the address rises by one. -/
theorem Memory.loadWords_imageBytes_cons {n : Nat} (h : n < memWords) (m : Memory) (w : Word) (ws : List Word) :
    m.loadWords n (imageBytes (w :: ws)) =
      (m.setWord (BitVec.ofNat 16 n) w).loadWords (n + 1) (imageBytes ws) := by
  simp [Memory.loadWords, h]

/-- What lies beyond address 0xFFFF is dropped. -/
theorem Memory.loadWords_beyond {n : Nat} (h : ¬ n < memWords) (m : Memory) (bs : List Byte) :
    m.loadWords n bs = m := by
  unfold Memory.loadWords
  split
  · exact if_neg h
  · rfl

/-- A read of a Word after Words are loaded from address `n` on. -/
theorem Memory.word_loadWords (m : Memory) (n : Nat) (ws : List Word) (a : Word) :
    (m.loadWords n (imageBytes ws)).word a =
      if a.toNat < n then m.word a else ws.getD (a.toNat - n) (m.word a) := by
  induction ws generalizing m n with
  | nil => simp [Memory.loadWords]
  | cons w ws ih =>
    by_cases hn : n < memWords
    · have hplace : (BitVec.ofNat 16 n).toNat = n := Nat.mod_eq_of_lt hn
      rw [Memory.loadWords_imageBytes_cons hn, ih]
      obtain hlt | heq | hgt := lt_trichotomy a.toNat n
      · have hne : a ≠ BitVec.ofNat 16 n := fun h => hlt.ne (h ▸ hplace)
        rw [if_pos (by omega), if_pos hlt, Memory.word_setWord_other hne]
      · have ha : a = BitVec.ofNat 16 n := BitVec.eq_of_toNat_eq (heq.trans hplace.symm)
        rw [if_pos (by omega), if_neg (by omega), ← ha, Memory.word_setWord_same, heq, Nat.sub_self,
          List.getD_cons_zero]
      · have hne : a ≠ BitVec.ofNat 16 n := fun h => hgt.ne' (h ▸ hplace)
        have hindex : a.toNat - n = (a.toNat - (n + 1)) + 1 := by omega
        rw [if_neg (by omega), if_neg (by omega), Memory.word_setWord_other hne, hindex, List.getD_cons_succ]
    · have ha : a.toNat < n := a.isLt.trans_le (not_lt.1 hn)
      rw [Memory.loadWords_beyond hn, if_pos ha]

/-- Settles O60: the loader starts at the origin, and each Word it stores is read back. -/
theorem imageLoadingCopiesTheWords : Obligations.ImageLoadingCopiesTheWords :=
  fun m origin ws => ⟨_, m.loadImage_imageBytes origin ws, fun a => m.word_loadWords origin.toNat ws a⟩

/-! ### A step from a placed Word and from launch -/

/-- Away from the status address a running engine executes the stored Word (40_execution_cycle R90). -/
theorem step_plain {s : State} (hrun : s.run = .running) (hpc : s.pc ≠ params.kbsrAddr) :
    step s = exec (decode (s.mem.word s.pc)) (s.setPc (s.pc + 1)) := by
  obtain ⟨-, -, hplain⟩ := stepRunsTheDecodedInstruction s hrun
  exact hplain hpc

/-- Execution does not begin at the status address (70_reset_and_hazards R201). -/
theorem loadAddress_ne_kbsrAddr : Config.loadAddress ≠ params.kbsrAddr := by decide

theorem State.withFetchWord_run (s : State) (nbits w : Nat) : (s.withFetchWord nbits w).run = .running := rfl

/-- The Word is placed where the next step fetches it. -/
theorem State.withFetchWord_word (s : State) (nbits w : Nat) :
    (s.withFetchWord nbits w).mem.word (s.withFetchWord nbits w).pc = BitVec.ofNat 16 (w % 2 ^ nbits) :=
  Memory.word_setWord_same ..

theorem State.withFetchWord_pc_of_ne {s : State} (h : s.pc ≠ params.kbsrAddr) (nbits w : Nat) :
    (s.withFetchWord nbits w).pc = s.pc := if_neg h

/-- The fetch from the placed Word is never intercepted: `pc` moves off the status address. -/
theorem State.withFetchWord_pc_ne_kbsrAddr (s : State) (nbits w : Nat) :
    (s.withFetchWord nbits w).pc ≠ params.kbsrAddr := by
  by_cases h : s.pc = params.kbsrAddr
  · have hpc : (s.withFetchWord nbits w).pc = Config.loadAddress := if_pos h
    rw [hpc]
    exact loadAddress_ne_kbsrAddr
  · rwa [State.withFetchWord_pc_of_ne h]

/-- Settles O15: the placed Word is the one a plain fetch reads. -/
theorem placedWordIsExecutedNext : Obligations.PlacedWordIsExecutedNext := by
  intro s w
  have hword : (s.withFetchWord 16 w.toNat).mem.word (s.withFetchWord 16 w.toNat).pc = w := by
    rw [State.withFetchWord_word, Nat.mod_eq_of_lt w.isLt, BitVec.ofNat_toNat, BitVec.setWidth_eq]
  refine ⟨_, rfl, hword, ?_, fun hpc => State.withFetchWord_pc_of_ne hpc 16 w.toNat⟩
  rw [step_plain (s.withFetchWord_run 16 _) (s.withFetchWord_pc_ne_kbsrAddr 16 _), hword]

/-- Settles O59: the launch state runs, and the load address is no keyboard address, so the fetch is plain. -/
theorem firstFetchIsAtTheLoadAddress : Obligations.FirstFetchIsAtTheLoadAddress :=
  fun x m input answers => step_plain (s := State.launch x m input answers) rfl loadAddress_ne_kbsrAddr

/-! ### Reset and launch (70_reset_and_hazards R200) -/

/-- Reset is a launch with nothing loaded and no input. -/
theorem State.reset_eq_launch : State.reset = State.launch (Vector.replicate 8 0) [] [] [] := rfl

/-- At launch nothing is written yet, so the invariant is the canonical form of the memory alone. -/
theorem State.launch_inv (x : Vector Word 8) {m : Memory} (input : List Byte) (answers : List Bool) (h : m.wf) :
    (State.launch x m input answers).Inv := ⟨h, le_rfl⟩

/-- Settles O57: reset is the launch over the empty memory, which is canonical. -/
theorem invariantHoldsAtResetAndLaunch : Obligations.InvariantHoldsAtResetAndLaunch :=
  ⟨State.reset_eq_launch ▸ State.launch_inv _ _ _ Memory.wf_nil, fun x _ input answers =>
    State.launch_inv x input answers⟩

/-- Settles O58: at reset and at these launches memory is empty, so every Word of it reads as zero; the other values
are the constants of reset. -/
theorem resetLeavesTheStatedValues : Obligations.ResetLeavesTheStatedValues := by
  rintro x input answers s (rfl | rfl)
  · exact ⟨rfl, rfl, rfl, Memory.word_nil, rfl⟩
  · exact ⟨rfl, rfl, rfl, Memory.word_nil, rfl⟩

end Sys2Proof.Machine
